-- ==== Sys2Proof/Word.lean ====
section
/-!
DEFINITION. The two widths of POHC: the 64-bit pattern of every register, operand and table element
(00_scope.md R6, R8), and the byte in which the table memory is held (20_memory.md R44 (c)).
-/
namespace Sys2Proof

/-- A 64-bit pattern; bit 0 is the least significant (00_scope.md R8). -/
abbrev Word := BitVec 64

/-- One byte of table memory. -/
abbrev Byte := BitVec 8

end Sys2Proof
end

