-- ==== Sys2Proof/Syntax.lean ====
section
/-!
DEFINITION. The commands of POHC, one constructor for each row of spec/opcode_table.json
(30_encoding.md R62). A command word carries no operand values (R60): the only field left free is
the `SP` bit of PROBE.
-/
namespace Sys2Proof

/-- The four commands (00_scope.md R2). -/
inductive Instr where
  /-- MODMUL, the modular multiplier (40_modmul.md R80). -/
  | modmul
  /-- TABHASH, the tabulation hasher (41_tabhash.md R90). -/
  | tabhash
  /-- UNIHASH, the universal hasher (42_unihash.md R105). -/
  | unihash
  /-- PROBE, the probe sequencer (43_probe.md R115); `sp` is command word bit 8, "`ARG1` holds a
  `secondaryHash`" (30_encoding.md R63). -/
  | probe (sp : Bool)
  deriving DecidableEq, Repr

end Sys2Proof
end

