-- ==== Sys2Proof/Decode.lean ====
section
/-!
DEFINITION. Decoding a command word (30_encoding.md R61, R67, R70), the opcode table it must agree
with (R62), and the encoder.
-/
namespace Sys2Proof

/-- `OPC`, bits 7:0 (30_encoding.md R61). -/
def opcField (w : Word) : BitVec 8 := w.extractLsb' 0 8

/-- `SP`, bit 8 (30_encoding.md R61). -/
def spField (w : Word) : Bool := w.getLsbD 8

/-- `ZERO`, bits 63:9, which must be 0 (30_encoding.md R61). -/
def zeroField (w : Word) : BitVec 55 := w.extractLsb' 9 55

/-- Why a command word is illegal (30_encoding.md R67). Every one of them ends in E_CMD. -/
inductive Illegal where
  /-- A bit of [63:9] is set. -/
  | reservedBits
  /-- `SP = 1` with an opcode other than PROBE's. -/
  | secondaryHashBit
  /-- `OPC` is 0x00 or in 0x05..0xFF. -/
  | opcode
  deriving DecidableEq, Repr

/-- What a command word says: a command, or a rejection by name. -/
inductive Decoded where
  | command (i : Instr)
  | illegal (why : Illegal)
  deriving DecidableEq, Repr

/-- A command whose `SP` bit must be 0 (30_encoding.md R70). -/
def withoutSp (w : Word) (i : Instr) : Decoded :=
  if spField w then .illegal .secondaryHashBit else .command i

/-- Decoding is total: every 64-bit word has exactly one outcome (30_encoding.md R70). -/
def decode (w : Word) : Decoded :=
  if zeroField w ≠ 0 then .illegal .reservedBits
  else match (opcField w).toNat with
    | 0x01 => withoutSp w .modmul
    | 0x02 => withoutSp w .tabhash
    | 0x03 => withoutSp w .unihash
    | 0x04 => .command (.probe (spField w))
    | _ => .illegal .opcode

/-- The command word of a command: its row's `match`, with `SP` in bit 8 (30_encoding.md R62). -/
def encode : Instr → Word
  | .modmul => 0x0000000000000001
  | .tabhash => 0x0000000000000002
  | .unihash => 0x0000000000000003
  | .probe sp => 0x0000000000000004 ||| ((BitVec.ofBool sp).setWidth 64 <<< 8)

/-- One row of the opcode map (30_encoding.md R62): a word `w` selects it when
`w &&& mask = pattern`. -/
structure OpcodeRow where
  mnemonic : String
  pattern : Word
  mask : Word
  deriving DecidableEq, Repr

/-- The opcode map of 30_encoding.md R62. -/
def opcodeMap : List OpcodeRow :=
  [⟨"MODMUL", 0x0000000000000001, 0xFFFFFFFFFFFFFFFF⟩,
   ⟨"TABHASH", 0x0000000000000002, 0xFFFFFFFFFFFFFFFF⟩,
   ⟨"UNIHASH", 0x0000000000000003, 0xFFFFFFFFFFFFFFFF⟩,
   ⟨"PROBE", 0x0000000000000004, 0xFFFFFFFFFFFFFEFF⟩]

/-- The rows a word selects; a word that selects none is illegal (30_encoding.md R67). -/
def selectedRows (w : Word) : List OpcodeRow :=
  opcodeMap.filter fun r => w &&& r.mask == r.pattern

/-- The command word whose low `nbits` bits are those of `w`, the bits above them 0. -/
def tableWord (nbits w : Nat) : Word := BitVec.ofNat 64 (w % 2 ^ nbits)

/-- What the decoder reads from a word numbered as spec/opcode_table.json numbers it. A command is
one 64-bit word (30_encoding.md R60), the whole datum of one bus write, so bit `n` of the table is
bit `n` of the word; no command is longer than 64 bits. -/
def decodeTableWord (nbits w : Nat) : Option Instr :=
  if nbits ≤ 64 then
    match decode (tableWord nbits w) with
    | .command i => some i
    | .illegal _ => none
  else none

end Sys2Proof
end

