-- ==== Sys2Proof/Machine/Bus.lean ====
section
/-!
DEFINITION. What hosts and the platform do to the block: bus accesses, stores to the table memory,
and reset (00_scope.md R11, R14; 60_exceptions.md R156).
-/
namespace Sys2Proof.Machine

/-- One thing a host or the platform does. `host` is the number of the host that does it
(00_scope.md R14: there may be any number). An access to the register window carries its width in
bits and its byte offset, so that an access the window does not accept can be written down
(20_memory.md R45). -/
inductive Event where
  /-- `BusRead(off)` (00_scope.md R11). -/
  | busRead (host width off : Nat)
  /-- `BusWrite(off, v)` (00_scope.md R11). -/
  | busWrite (host width off : Nat) (v : Word)
  /-- `MemWrite(ea, 8, v)`, a host's store to the table memory, outside the block (R11). -/
  | memWrite (host : Nat) (ea v : Word)
  /-- The platform's reset signal (70_reset_and_hazards.md R165). -/
  | reset
  deriving DecidableEq, Repr

/-- What one `BusRead` returned, and to which host. -/
structure ReadData where
  host : Nat
  off : Nat
  v : Word
  deriving DecidableEq, Repr

/-- The window accepts only 64-bit accesses at offsets that are multiples of 8 in [0x00, 0xF8]
(10_state.md R30, 20_memory.md R45). -/
def accepted (width off : Nat) : Bool :=
  width == 64 && off % 8 == 0 && decide (off < 256)

end Sys2Proof.Machine
end

