-- ==== Sys2Proof/Config.lean ====
section
/-!
DEFINITION. The parameters of the block (00_scope.md R7): the fixed modulus, the parameters the spec
leaves OPEN, and the free value of an unspecified table element. What is open has no body, so no
proof can learn what it is.
-/
namespace Sys2Proof.Config

/-- `P`, the universal-hash modulus, 2^32 + 15 (00_scope.md R7). -/
def modulusP : Nat := 4294967311

/-- `TM_DOMAIN`, the set of table-memory element addresses the platform backs: OPEN, an argument of
the model (00_scope.md R7, decision D27). -/
opaque tmDomain : Word → Bool

/-- The value the `n`-th read of an unspecified table element returns: an element outside
`TM_DOMAIN` or one no host ever wrote (20_memory.md R57). A free value, "a draw per read, not
necessarily the same on a second read" (93_implementation_defined.md U3; log entry 4). -/
opaque freeElement (n : Nat) : Word

/-- `LAT_MODMUL`, `LAT_TABHASH`, `LAT_UNIHASH`, `LAT_PROBE`: how long the write to `CMD` is held.
OPEN and read by no rule (decision D29); a `Nat`, since R173 requires only that it is finite. -/
opaque latency : Instr → Nat

end Sys2Proof.Config
end

