-- ==== Sys2Proof/Machine/Memory.lean ====
section
/-!
DEFINITION. The table memory TM (20_memory.md R41 to R44, R57): an array of 64-bit elements at
64-bit element addresses, held as byte cells. Element `ea` is the eight bytes at byte addresses
`8 * ea .. 8 * ea + 7`, the lowest holding bits [7:0] (R44 (c)). A byte is listed exactly when a
host's store put it there and the platform backs it; an unlisted byte has no specified value.
-/
namespace Sys2Proof.Machine

/-- The cells of TM that hold a value, by rising byte address. -/
abbrev Memory := List Host.Cell

/-- `2^64` elements of 8 bytes (20_memory.md R41). -/
def memoryBytes : Nat := 2 ^ 67

/-- Addresses strictly rising from `lo` and inside TM. -/
def Memory.wfFrom : Nat → Memory → Bool
  | _, [] => true
  | lo, c :: m => decide (lo ≤ c.1) && decide (c.1 < memoryBytes) && Memory.wfFrom (c.1 + 1) m

/-- The canonical form: addresses strictly rising, all inside TM. No entry can equal what an
unlisted address reads as, since an unlisted address reads as no value. -/
def Memory.wf (m : Memory) : Bool := Memory.wfFrom 0 m

/-- What the byte at `a` reads as: its listed value, or no specified value. -/
def Memory.byteAt : Memory → Nat → Option Byte
  | [], _ => none
  | c :: m, a => if c.1 < a then Memory.byteAt m a else if c.1 = a then some c.2 else none

/-- The cells from byte address `a` on. -/
def Memory.skipTo (m : Memory) (a : Nat) : Memory := m.dropWhile fun c => c.1 < a

/-- The `n` bytes from `a` on as one number, the lowest address least significant
(20_memory.md R44 (c)); no value unless every one of them is listed. -/
def Memory.bytesFrom (m : Memory) (a : Nat) : Nat → Option Nat
  | 0 => some 0
  | n + 1 =>
    match m.byteAt a, Memory.bytesFrom m (a + 1) n with
    | some b, some hi => some (b.toNat + 256 * hi)
    | _, _ => none

/-- The byte address of an element (20_memory.md R44 (c)). -/
def elementBase (ea : Word) : Nat := 8 * ea.toNat

/-- The specified value of the element at `ea`, if it has one (20_memory.md R41, R57). -/
def Memory.elementAt (m : Memory) (ea : Word) : Option Word :=
  (Memory.bytesFrom (Memory.skipTo m (elementBase ea)) (elementBase ea) 8).map (BitVec.ofNat 64)

/-- The eight cells of an element whose byte address is `a`. -/
def elementCells (a : Nat) (v : Word) : Memory :=
  (List.range 8).map fun k => (a + k, v.extractLsb' (8 * k) 8)

/-- Storing the element `v` at `ea`. -/
def Memory.store (m : Memory) (ea v : Word) : Memory :=
  (m.takeWhile fun c => c.1 < elementBase ea) ++ elementCells (elementBase ea) v
    ++ Memory.skipTo m (elementBase ea + 8)

/-- `MemWrite(ea, 8, v)` by a host (00_scope.md R11). An element the platform does not back holds
nothing (00_scope.md R7, decision D27; log entry 5). -/
def Memory.hostWrite (m : Memory) (ea v : Word) : Memory :=
  if Config.tmDomain ea then m.store ea v else m

/-- `MemRead(ea, 8)` when `draws` unspecified elements have been read before: the element's value,
or a free value and one draw more (20_memory.md R43, R57; 93_implementation_defined.md U3). -/
def Memory.read (m : Memory) (draws : Nat) (ea : Word) : Word × Nat :=
  match m.elementAt ea with
  | some v => (v, draws)
  | none => (Config.freeElement draws, draws + 1)

end Sys2Proof.Machine
end

