-- ==== Sys2Proof/Machine/State.lean ====
section
/-!
DEFINITION. The state of the block and of the platform around it (10_state.md R20, R31), the ways a
step can stop, and the state after reset.
-/
namespace Sys2Proof.Machine

/-- There is no fault: an error "ends one command and nothing more" and the block "is not stopped,
locked or degraded by an error" (60_exceptions.md R145). Errors are next states, reported in
`STATUS` and `ERRINFO`. -/
inductive Fault where
  deriving DecidableEq, Repr

/-- Why a step has no meaning in the model. -/
inductive Refusal where
  /-- Raised by exec's arm of a command that has no meaning yet (none is left). Safe. -/
  | notModelled (mnemonic : String)
  /-- Raised by a window access that is not a 64-bit access at a multiple of 8 inside the 256-byte
  window: it "changes no state and returns no data, and a model refuses it" (20_memory.md R45).
  Safe: nothing can be proved of a run that makes one. -/
  | accessNotAccepted (width off : Nat)
  deriving DecidableEq, Repr

structure State where
  /-- `ARG0`..`ARG4`, the argument registers (10_state.md R21). -/
  arg0 : Word
  arg1 : Word
  arg2 : Word
  arg3 : Word
  arg4 : Word
  /-- `RES` (10_state.md R24). -/
  res : Word
  /-- `STATUS` (10_state.md R25). -/
  status : Word
  /-- `ERRINFO` (10_state.md R26). -/
  errinfo : Word
  /-- The table memory TM, state of the platform (10_state.md R31, 20_memory.md R41). -/
  tm : Memory
  /-- The model's own: how many unspecified elements have been read (log entry 4). -/
  draws : Nat
  /-- The model's own: what hosts and platform will do, in the order it takes effect
  (20_memory.md R51; log entry 1). -/
  pending : List Event
  /-- The model's own: what the reads returned, oldest first (log entry 2). -/
  returned : List ReadData
  deriving DecidableEq, Repr

/-- The block after reset: every register zero (10_state.md R33). No table element has been written
and no host access is pending (log entries 1, 2, 4 and 6). -/
def State.reset : State where
  arg0 := 0
  arg1 := 0
  arg2 := 0
  arg3 := 0
  arg4 := 0
  res := 0
  status := 0
  errinfo := 0
  tm := []
  draws := 0
  pending := []
  returned := []

end Sys2Proof.Machine
end

