-- ==== Sys2Proof/Machine/Flags.lean ====
section
/-!
DEFINITION. The error codes (60_exceptions.md R141) and the fields of `STATUS` (10_state.md R25).
-/
namespace Sys2Proof.Machine

/-- The eight errors (60_exceptions.md R141). -/
inductive ErrorName where
  | modulus
  | capacity
  | attempt
  | ptype
  | nosec
  | index
  | shift
  | cmd
  deriving DecidableEq, Repr

/-- The code of an error; 0 means no error and 9 to 15 are never produced (60_exceptions.md R141). -/
def errorCode : ErrorName → BitVec 4
  | .modulus => 1
  | .capacity => 2
  | .attempt => 3
  | .ptype => 4
  | .nosec => 5
  | .index => 6
  | .shift => 7
  | .cmd => 8

/-- `STATUS` from its fields: `RV` bit 0, `ERR` bit 1, `ECODE` bits 7:4, the others 0
(10_state.md R25). -/
def statusWord (rv err : Bool) (ecode : BitVec 4) : Word :=
  (BitVec.ofBool rv).setWidth 64 ||| ((BitVec.ofBool err).setWidth 64 <<< 1)
    ||| (ecode.setWidth 64 <<< 4)

/-- `STATUS` after a command that ended with `return` (60_exceptions.md R143). -/
def statusSuccess : Word := statusWord true false 0

/-- `STATUS` after a command that ended with `raise` (60_exceptions.md R143). -/
def statusError (e : ErrorName) : Word := statusWord false true (errorCode e)

/-- `STATUS.RV` (10_state.md R25). -/
def statusRv (w : Word) : Bool := w.getLsbD 0

/-- `STATUS.ERR` (10_state.md R25). -/
def statusErr (w : Word) : Bool := w.getLsbD 1

/-- `STATUS.ECODE` (10_state.md R25). -/
def statusEcode (w : Word) : BitVec 4 := w.extractLsb' 4 4

end Sys2Proof.Machine
end

