-- ==== Sys2Proof/Machine/Operands.lean ====
section
/-!
DEFINITION. How a register pattern is read as an operand and how a result becomes a pattern
(00_scope.md R8 to R10, 10_state.md R22, R23). After `s64`, `s32` or `u64` a value is an integer and
arithmetic is exact.
-/
namespace Sys2Proof.Machine

/-- A 64-bit pattern as a two's-complement integer (00_scope.md R8). -/
def s64 (v : Word) : Int := v.toInt

/-- A 64-bit pattern as an unsigned integer (00_scope.md R8). -/
def u64 (v : Word) : Nat := v.toNat

/-- Bits [31:0] as a two's-complement integer; bits [63:32] are ignored (00_scope.md R8,
10_state.md R23). -/
def s32 (v : Word) : Int := (v.setWidth 32).toInt

/-- The pattern of a signed integer (00_scope.md R8). -/
def sext64 (n : Int) : Word := BitVec.ofInt 64 n

/-- The pattern of a non-negative integer (00_scope.md R8). -/
def zext64 (n : Nat) : Word := BitVec.ofNat 64 n

/-- The residue of `v` modulo a positive `p`, in [0, p) (00_scope.md R9). -/
def emod (v p : Int) : Int := v % p

/-- `n & (c - 1)`, on 64-bit patterns (00_scope.md R10, 43_probe.md R122, R124). -/
def maskIndex (n c : Int) : Word := sext64 n &&& sext64 (c - 1)

/-- Argument register `n`, "the `n`-th parameter (counting from 0)" (10_state.md R22). -/
def State.arg (s : State) : Fin 5 → Word
  | 0 => s.arg0
  | 1 => s.arg1
  | 2 => s.arg2
  | 3 => s.arg3
  | 4 => s.arg4

/-- `ARG[n] <- v` (00_scope.md R11). -/
def State.setArg (s : State) (n : Fin 5) (v : Word) : State :=
  match n with
  | 0 => { s with arg0 := v }
  | 1 => { s with arg1 := v }
  | 2 => { s with arg2 := v }
  | 3 => { s with arg3 := v }
  | 4 => { s with arg4 := v }

end Sys2Proof.Machine
end

