-- ==== Sys2Proof/Machine/Ops.lean ====
section
/-!
DEFINITION. How a command ends (60_exceptions.md R143), the reset of the block
(70_reset_and_hazards.md R165) and the two accesses to the register window (10_state.md R30).

Taking an error is `endCommand` of a raised error. There is no return from one beside it: "There is
no return-from-trap command and nothing to restore" (60_exceptions.md R145).
-/
namespace Sys2Proof.Machine

/-- `raise E_X(info)` (00_scope.md R11). -/
structure Raised where
  error : ErrorName
  info : Word
  deriving DecidableEq, Repr

/-- The end of a command (60_exceptions.md R143): `return v` writes `RES`, `STATUS` and `ERRINFO`;
`raise` writes `STATUS` and `ERRINFO` and `RES` keeps its old value. Nothing else changes. -/
def endCommand (outcome : Except Raised Word) (s : State) : State :=
  match outcome with
  | .ok v => { s with res := v, status := statusSuccess, errinfo := 0 }
  | .error r => { s with status := statusError r.error, errinfo := r.info }

/-- The block's reset: its eight registers become zero; TM is not touched
(70_reset_and_hazards.md R165, 10_state.md R33). -/
def resetBlock (s : State) : State :=
  { s with arg0 := 0, arg1 := 0, arg2 := 0, arg3 := 0, arg4 := 0, res := 0, status := 0, errinfo := 0 }

/-- What `BusRead(off)` returns (10_state.md R30): `CMD` and reserved locations read 0, `PMOD` is the
constant `P` (R28). -/
def windowRead (s : State) (off : Nat) : Word :=
  match off with
  | 0x00 => s.arg0
  | 0x08 => s.arg1
  | 0x10 => s.arg2
  | 0x18 => s.arg3
  | 0x20 => s.arg4
  | 0x28 => s.res
  | 0x30 => s.status
  | 0x38 => s.errinfo
  | 0x48 => zext64 Config.modulusP
  | _ => 0

/-- What `BusWrite(off, v)` does at every location but `CMD` (10_state.md R30): it writes an argument
register, and does nothing anywhere else. -/
def windowWrite (s : State) (off : Nat) (v : Word) : State :=
  match off with
  | 0x00 => s.setArg 0 v
  | 0x08 => s.setArg 1 v
  | 0x10 => s.setArg 2 v
  | 0x18 => s.setArg 3 v
  | 0x20 => s.setArg 4 v
  | _ => s

end Sys2Proof.Machine
end

