-- ==== Sys2Proof/Machine/Modmul.lean ====
section
/-!
DEFINITION. MODMUL, the modular multiplier, and the function `modMul` it shares with UNIHASH
(40_modmul.md R80 to R87).
-/
namespace Sys2Proof.Machine

/-- The loop of 40_modmul.md R84: `an` doubles, `xn` shifts right, every sum is reduced modulo `p`.
`fuel` bounds the passes. -/
def shiftAdd (fuel p an xn res : Nat) : Nat :=
  match fuel with
  | 0 => res
  | fuel + 1 =>
    if xn = 0 then res
    else shiftAdd fuel p ((an + an) % p) (xn / 2) (if xn % 2 = 1 then (res + an) % p else res)

/-- `modMul(a, x, p)` (40_modmul.md R84): the modulus is tested first (R81), both factors are reduced
(R82), a zero factor gives 0 at once (R83), and the loop makes at most 63 passes (R87). -/
def modMul (a x p : Int) : Except Raised Int :=
  if p ≤ 0 then .error ⟨.modulus, sext64 p⟩
  else if emod a p = 0 ∨ emod x p = 0 then .ok 0
  else .ok (shiftAdd 63 p.toNat (emod a p).toNat (emod x p).toNat 0)

/-- MODMUL's outcome (40_modmul.md R80). -/
def modmulOutcome (s : State) : Except Raised Word :=
  match modMul (s64 s.arg0) (s64 s.arg1) (s64 s.arg2) with
  | .ok r => .ok (zext64 r.toNat)
  | .error e => .error e

/-- MODMUL: `RES <- (a × x) mod p`, exact (40_modmul.md R80). -/
def execModmul (s : State) : Host.Outcome State Fault Refusal :=
  .next (endCommand (modmulOutcome s) s)

end Sys2Proof.Machine
end

