-- ==== Sys2Proof/Machine/Probe.lean ====
section
/-!
DEFINITION. PROBE, the probe sequencer: quadratic probing and double hashing
(43_probe.md R115 to R131).
-/
namespace Sys2Proof.Machine

/-- `c > 0` and `c & (c - 1) = 0` (43_probe.md R117). -/
def capacityLegal (c : Int) : Bool := decide (0 < c) && (c.toNat &&& (c.toNat - 1)) == 0

/-- The triangular number of the attempt (43_probe.md R120), an exact integer (R121). -/
def triangular (t : Int) : Int := t * (t + 1) / 2

/-- The odd step of double hashing, `|secondaryHash| OR 1` (43_probe.md R123). -/
def probeStep (h : Int) : Nat := h.natAbs ||| 1

/-- The offset from the initial index, by strategy (43_probe.md R119, R120, R124, R126). -/
def probeOffset (sp : Bool) (ty h t : Int) : Except Raised Int :=
  if ty = 0 then .ok (triangular t)
  else if ty = 1 then
    if sp then .ok (t * probeStep h) else .error ⟨.nosec, 0⟩
  else .error ⟨.ptype, sext64 ty⟩

/-- PROBE's outcome: capacity, then attempt, then the tag (43_probe.md R115, R116). -/
def probeOutcome (sp : Bool) (s : State) : Except Raised Word :=
  if capacityLegal (s32 s.arg4) = false then .error ⟨.capacity, sext64 (s32 s.arg4)⟩
  else if s32 s.arg2 < 1 then .error ⟨.attempt, sext64 (s32 s.arg2)⟩
  else
    match probeOffset sp (s32 s.arg0) (s64 s.arg1) (s32 s.arg2) with
    | .ok off => .ok (maskIndex (s32 s.arg3 + off) (s32 s.arg4))
    | .error e => .error e

/-- PROBE: `RES <-` the next bucket index (43_probe.md R115). -/
def execProbe (sp : Bool) (s : State) : Host.Outcome State Fault Refusal :=
  .next (endCommand (probeOutcome sp s) s)

end Sys2Proof.Machine
end

