-- ==== Sys2Proof/Machine/Tabhash.lean ====
section
/-!
DEFINITION. TABHASH, the tabulation hasher (41_tabhash.md R90 to R102).
-/
namespace Sys2Proof.Machine

/-- The operands of a TABHASH whose handle is not null (41_tabhash.md R90). -/
structure TabOperands where
  key : Word
  handle : Word
  tableCount : Int
  bucketSize : Int
  byteShift : Int
  deriving DecidableEq, Repr

/-- The operands from the argument registers (10_state.md R22, R23). -/
def tabOperands (s : State) : TabOperands :=
  ⟨s.arg0, s.arg1, s32 s.arg2, s32 s.arg3, s32 s.arg4⟩

/-- The shift amount of lane `i` (41_tabhash.md R94). -/
def laneShift (o : TabOperands) (i : Nat) : Int := i * o.byteShift

/-- The byte of lane `i`: an arithmetic shift of the signed key, and the low eight bits
(41_tabhash.md R93). -/
def laneByte (o : TabOperands) (i : Nat) : Nat :=
  ((o.key.sshiftRight (laneShift o i).toNat) &&& 0xFF).toNat

/-- The flattened index of lane `i` (41_tabhash.md R95). -/
def laneIndex (o : TabOperands) (i : Nat) : Int := i * o.bucketSize + laneByte o i

/-- The element address of lane `i`, modulo 2^64 (20_memory.md R43). -/
def laneAddress (o : TabOperands) (i : Nat) : Word := o.handle + sext64 (laneIndex o i)

/-- What is wrong with lane `i`, if anything: the shift is tested before the index
(41_tabhash.md R94, R95, R97). -/
def laneError (o : TabOperands) (i : Nat) : Option Raised :=
  if laneShift o i < 0 ∨ laneShift o i > 63 then some ⟨.shift, sext64 (laneShift o i)⟩
  else if laneIndex o i < 0 ∨ laneIndex o i ≥ o.tableCount * o.bucketSize then
    some ⟨.index, sext64 (laneIndex o i)⟩
  else none

/-- `n` lanes from lane `i` on, in ascending order (41_tabhash.md R90, R96, R97). It answers the
accumulator and how many unspecified elements have been read by then. -/
def foldLanes (tm : Memory) (o : TabOperands) (n i : Nat) (acc : Word) (draws : Nat) :
    Except Raised (Word × Nat) :=
  match n with
  | 0 => .ok (acc, draws)
  | n + 1 =>
    match laneError o i with
    | some e => .error e
    | none =>
      foldLanes tm o n (i + 1) (acc ^^^ (tm.read draws (laneAddress o i)).1)
        (tm.read draws (laneAddress o i)).2

/-- TABHASH's outcome: the null handle gives `keyHash` back (41_tabhash.md R91); otherwise the lanes
`0 .. tableCount-1` are folded, none of them if `tableCount <= 0` (R99). -/
def tabhashOutcome (s : State) : Except Raised (Word × Nat) :=
  if s.arg1 = 0 then .ok (s.arg0, s.draws)
  else foldLanes s.tm (tabOperands s) (s32 s.arg2).toNat 0 0 s.draws

/-- TABHASH: `RES <-` the XOR of one table element per lane (41_tabhash.md R90). A failing command
writes no result (60_exceptions.md R144), and what it drew is forgotten. -/
def execTabhash (s : State) : Host.Outcome State Fault Refusal :=
  match tabhashOutcome s with
  | .ok (v, draws) => .next (endCommand (.ok v) { s with draws := draws })
  | .error e => .next (endCommand (.error e) s)

end Sys2Proof.Machine
end

