-- ==== Sys2Proof/Machine/Unihash.lean ====
section
/-!
DEFINITION. UNIHASH, the universal hasher (42_unihash.md R105 to R111).
-/
namespace Sys2Proof.Machine

/-- UNIHASH's outcome: `modMul(a, keyHash, P)`, plus `b` over the integers, reduced
(42_unihash.md R105 to R107). `P` is positive, so `modMul` does not raise. -/
def unihashOutcome (s : State) : Except Raised Word :=
  match modMul (s64 s.arg1) (s64 s.arg0) Config.modulusP with
  | .ok m => .ok (zext64 (emod (m + s64 s.arg2) Config.modulusP).toNat)
  | .error e => .error e

/-- UNIHASH: `RES <- (a × keyHash + b) mod P`, exact (42_unihash.md R105). -/
def execUnihash (s : State) : Host.Outcome State Fault Refusal :=
  .next (endCommand (unihashOutcome s) s)

end Sys2Proof.Machine
end

