-- ==== Sys2Proof/Machine/Dispatch.lean ====
section
/-!
DEFINITION. The dispatch of a decoded command to its meaning (30_encoding.md R70).
-/
namespace Sys2Proof.Machine

def exec (i : Instr) (s : State) : Host.Outcome State Fault Refusal :=
  match i with
  | .modmul => Sys2Proof.Machine.execModmul s
  | .tabhash => Sys2Proof.Machine.execTabhash s
  | .unihash => Sys2Proof.Machine.execUnihash s
  | .probe sp => Sys2Proof.Machine.execProbe sp s

end Sys2Proof.Machine
end

