-- ==== Sys2Proof/Machine/Window.lean ====
section
/-!
DEFINITION. What one event does to the machine: a bus access, a host store, or reset
(10_state.md R30, R35, R36; 20_memory.md R45; 70_reset_and_hazards.md R165).
-/
namespace Sys2Proof.Machine

/-- The offset of `CMD` (10_state.md R30). -/
def cmdOffset : Nat := 0x40

/-- `Execute(w)`: decode the command word and run the command; an illegal word ends with
`raise E_CMD(w)` (30_encoding.md R67, R70). -/
def executeWord (w : Word) (s : State) : Host.Outcome State Fault Refusal :=
  match decode w with
  | .command i => exec i s
  | .illegal _ => .next (endCommand (.error ⟨.cmd, w⟩) s)

/-- A `BusRead` the window accepts: it hands a value to the host and has no side effect
(10_state.md R30). -/
def busRead (host off : Nat) (s : State) : State :=
  { s with returned := s.returned ++ [⟨host, off, windowRead s off⟩] }

/-- A `BusWrite` the window accepts: at `CMD` it runs a command to its end (10_state.md R35),
elsewhere it is one write of R30. -/
def busWrite (off : Nat) (v : Word) (s : State) : Host.Outcome State Fault Refusal :=
  if off = cmdOffset then executeWord v s else .next (windowWrite s off v)

/-- One event takes effect. -/
def perform (e : Event) (s : State) : Host.Outcome State Fault Refusal :=
  match e with
  | .busRead host width off =>
    if accepted width off then .next (busRead host off s)
    else .refused (.accessNotAccepted width off)
  | .busWrite _ width off v =>
    if accepted width off then busWrite off v s
    else .refused (.accessNotAccepted width off)
  | .memWrite _ ea v => .next { s with tm := s.tm.hostWrite ea v }
  | .reset => .next (resetBlock s)

/-- The first pending event is taken from the list and performed; with none pending the block is
idle and "nothing happens between accesses" (60_exceptions.md R148; log entry 3). -/
def stepEvents (s : State) : Host.Outcome State Fault Refusal :=
  match s.pending with
  | [] => .next s
  | e :: rest => perform e { s with pending := rest }

/-- A host's write of a command word to `CMD` (10_state.md R27). -/
def commandWrite (w : Word) : Event := .busWrite 0 64 cmdOffset w

end Sys2Proof.Machine
end

