-- ==== Sys2Proof/Machine/Step.lean ====
section
/-!
DEFINITION. One step of the machine, and how a command word is placed as the next one.
-/
namespace Sys2Proof.Machine

/-- One step: the next event that the hosts or the platform have pending takes effect. -/
def step (s : State) : Host.Outcome State Fault Refusal := stepEvents s

/-- The block fetches nothing: "A command is delivered by the host's write to `CMD`"
(10_state.md R29). So the next command is placed by making that write the first pending event
(log entry 1). -/
def State.withFetchWord (s : State) (nbits w : Nat) : State :=
  { s with pending := commandWrite (tableWord nbits w) :: s.pending }

end Sys2Proof.Machine
end

