-- ==== Sys2Proof/Machine/Script.lean ====
section
/-!
DEFINITION. The notation for what a host does: script lines, the bus transaction each stands for,
and the pseudo-instructions (30_encoding.md R71, R72). It is notation, not part of the hardware
(decision D25); no step reads it.
-/
namespace Sys2Proof.Machine

/-- What `rd` may name (30_encoding.md R71). -/
inductive ReadReg where
  | arg (n : Fin 5)
  | res
  | status
  | errinfo
  | pmod
  deriving DecidableEq, Repr

/-- The offset of an argument register (10_state.md R30). -/
def argOffset (n : Fin 5) : Nat := 8 * n.val

/-- `off(REG)` (30_encoding.md R71, 10_state.md R30). -/
def readOffset : ReadReg → Nat
  | .arg n => argOffset n
  | .res => 0x28
  | .status => 0x30
  | .errinfo => 0x38
  | .pmod => 0x48

/-- One line of a host script (30_encoding.md R71). `cmd PROBE.SP` is `cmd (.probe true)`. -/
inductive ScriptLine where
  | wr (n : Fin 5) (v : Word)
  | cmd (i : Instr)
  | cmdRaw (w : Word)
  | rd (r : ReadReg)
  | tm (ea v : Word)
  deriving DecidableEq, Repr

/-- The transaction a line stands for, done by host `host` (30_encoding.md R71). -/
def lineEvent (host : Nat) : ScriptLine → Event
  | .wr n v => .busWrite host 64 (argOffset n) v
  | .cmd i => .busWrite host 64 0x40 (encode i)
  | .cmdRaw w => .busWrite host 64 0x40 w
  | .rd r => .busRead host 64 (readOffset r)
  | .tm ea v => .memWrite host ea v

/-- The encoding of a script (30_encoding.md R71). -/
def scriptEvents (host : Nat) (ls : List ScriptLine) : List Event := ls.map (lineEvent host)

/-- The pseudo-instructions, each the call of one POH function (30_encoding.md R72). -/
inductive Pseudo where
  | modmul (a x p : Word)
  | tabhash (k h tc bs sh : Word)
  | unihash (k a b : Word)
  | probeQ (t n c : Word)
  | probeD (sec t n c : Word)
  | probe (ty t n c : Word)
  | probeSp (ty sec t n c : Word)
  deriving DecidableEq, Repr

/-- The expansion of a pseudo-instruction (30_encoding.md R72). -/
def expand : Pseudo → List ScriptLine
  | .modmul a x p => [.wr 0 a, .wr 1 x, .wr 2 p, .cmd .modmul]
  | .tabhash k h tc bs sh => [.wr 0 k, .wr 1 h, .wr 2 tc, .wr 3 bs, .wr 4 sh, .cmd .tabhash]
  | .unihash k a b => [.wr 0 k, .wr 1 a, .wr 2 b, .cmd .unihash]
  | .probeQ t n c => [.wr 0 0, .wr 2 t, .wr 3 n, .wr 4 c, .cmd (.probe false)]
  | .probeD sec t n c => [.wr 0 1, .wr 1 sec, .wr 2 t, .wr 3 n, .wr 4 c, .cmd (.probe true)]
  | .probe ty t n c => [.wr 0 ty, .wr 2 t, .wr 3 n, .wr 4 c, .cmd (.probe false)]
  | .probeSp ty sec t n c =>
    [.wr 0 ty, .wr 1 sec, .wr 2 t, .wr 3 n, .wr 4 c, .cmd (.probe true)]

end Sys2Proof.Machine
end

