-- ==== Sys2Proof/WellFormed.lean ====
section
/-!
DEFINITION. Well-formedness of commands, of window accesses and of host scripts
(30_encoding.md R68, R73; 20_memory.md R45).
-/
namespace Sys2Proof

/-- Every command of the syntax is well formed: the command word has one free field, `SP` of PROBE,
and both its values are legal (30_encoding.md R62, R68). -/
def Instr.wf : Instr → Bool
  | .modmul => true
  | .tabhash => true
  | .unihash => true
  | .probe _ => true

end Sys2Proof

namespace Sys2Proof.Machine

/-- An event the machine has a meaning for: a window access must be accepted (20_memory.md R45). -/
def eventWf : Event → Bool
  | .busRead _ width off => accepted width off
  | .busWrite _ width off _ => accepted width off
  | .memWrite _ _ _ => true
  | .reset => true

/-- What a script has done so far: what it wrote to the argument registers, newest first, and the
table elements it stored. -/
structure ScriptPast where
  args : List (Fin 5 × Word)
  stored : List Word
  deriving DecidableEq, Repr

/-- The value last written to an argument register, if it was written. -/
def lastWritten (past : ScriptPast) (n : Fin 5) : Option Word := past.args.lookup n

/-- The argument registers a command reads (10_state.md R22; for TABHASH, 41_tabhash.md R90: with the
null handle only `ARG0` and `ARG1`). -/
def registersRead (i : Instr) (handle : Word) : List (Fin 5) :=
  match i with
  | .modmul => [0, 1, 2]
  | .tabhash => if handle = 0 then [0, 1] else [0, 1, 2, 3, 4]
  | .unihash => [0, 1, 2]
  | .probe false => [0, 2, 3, 4]
  | .probe true => [0, 1, 2, 3, 4]

/-- Every element of the table a TABHASH names has been stored (70_reset_and_hazards.md R168 (2)). -/
def tableStored (past : ScriptPast) (handle tc bs : Word) : Bool :=
  (List.range (s32 tc * s32 bs).toNat).all fun j =>
    past.stored.contains (handle + BitVec.ofNat 64 j)

/-- A command may be issued: its operands have been written, and for TABHASH its table
(30_encoding.md R73). -/
def commandReady (past : ScriptPast) (i : Instr) : Bool :=
  ((registersRead i ((lastWritten past 1).getD 0)).all fun n => (lastWritten past n).isSome) &&
    match i with
    | .tabhash =>
      let handle := (lastWritten past 1).getD 0
      handle == 0
        || tableStored past handle ((lastWritten past 2).getD 0) ((lastWritten past 3).getD 0)
    | .modmul => true
    | .unihash => true
    | .probe _ => true

/-- The rest of a script is well formed after `past`. -/
def scriptWfAfter (past : ScriptPast) : List ScriptLine → Bool
  | [] => true
  | .wr n v :: ls => scriptWfAfter { past with args := (n, v) :: past.args } ls
  | .cmd i :: ls => commandReady past i && scriptWfAfter past ls
  | .cmdRaw w :: ls =>
    (match decode w with
      | .command i => commandReady past i
      | .illegal _ => true) && scriptWfAfter past ls
  | .rd _ :: ls => scriptWfAfter past ls
  | .tm ea _ :: ls => scriptWfAfter { past with stored := ea :: past.stored } ls

/-- A script, run from reset, is well formed (30_encoding.md R73). -/
def scriptWf (ls : List ScriptLine) : Bool := scriptWfAfter ⟨[], []⟩ ls

end Sys2Proof.Machine
end

