-- ==== Sys2Proof/Safety.lean ====
section
/-!
DEFINITION. The invariant of the machine, and which steps are safe.
-/
namespace Sys2Proof.Machine

/-- The values `STATUS` can hold: zero from reset until the first command ends, 1 after a success,
`0x02 | code << 4` after an error (10_state.md R25, R33; 60_exceptions.md R143). -/
def statusLegal (w : Word) : Prop :=
  w = 0 ∨ w = 1 ∨ ∃ code : Nat, 1 ≤ code ∧ code ≤ 8 ∧ w = BitVec.ofNat 64 (0x02 + 16 * code)

/-- What holds of every state a run can reach. -/
structure Inv (s : State) : Prop where
  /-- TM is in its canonical form. -/
  tmCanonical : s.tm.wf = true
  /-- An element's bytes are all listed or none is: every access is a whole element
  (20_memory.md R41, R46). -/
  tmWhole : ∀ a, (s.tm.byteAt a).isSome = (s.tm.byteAt (8 * (a / 8))).isSome
  /-- Only elements the platform backs hold a value (00_scope.md R7, decision D27). -/
  tmBacked : ∀ a, (s.tm.byteAt a).isSome → Config.tmDomain (BitVec.ofNat 64 (a / 8)) = true
  /-- `STATUS` is one of its values; its reserved bits read as 0 (10_state.md R25). -/
  status : statusLegal s.status
  /-- Without an error `ERRINFO` is zero (10_state.md R26, R33). -/
  errinfo : statusErr s.status = false → s.errinfo = 0

/-- The next step is safe: the event it performs, if any, is one the block accepts. -/
def safeStep (s : State) : Bool :=
  match s.pending with
  | [] => true
  | e :: _ => eventWf e

end Sys2Proof.Machine
end

