-- ==== Sys2Proof/Certificates/Slice0/Obligations.lean ====
section
/-!
DEFINITION. The statements about POHC, from the numbered rules of spec/. The names under `Claims`
say what the rules say in plain integers and patterns, without the model's own operations.
-/
open Sys2Proof Sys2Proof.Machine

namespace Sys2Proof.Claims

/-- Bits [31:0] of a register as a signed integer (10_state.md R23). -/
def low32 (w : Word) : Int := (w.setWidth 32).toInt

/-- The state after a command that ended with `return v` (60_exceptions.md R143). -/
def returns (s : State) (v : Word) : State := { s with res := v, status := 0x01, errinfo := 0 }

/-- The state after a command that ended with the error of this code (60_exceptions.md R143). -/
def raises (s : State) (code : Nat) (info : Word) : State :=
  { s with status := BitVec.ofNat 64 (0x02 + 16 * code), errinfo := info }

/-- The two runs of a command end alike: the same `STATUS` and `ERRINFO`, and the same result if
there is one. -/
def sameOutcome (i : Instr) (s s' : State) : Prop :=
  ∃ t t', exec i s = .next t ∧ exec i s' = .next t' ∧ t.status = t'.status ∧
    t.errinfo = t'.errinfo ∧ (t.status = 0x01 → t.res = t'.res)

/-- The shift amount of lane `i` (41_tabhash.md R93). -/
def shiftOf (s : State) (i : Nat) : Int := i * low32 s.arg4

/-- The flattened index of lane `i`, its byte being `floor(keyHash / 2^s) mod 256`
(41_tabhash.md R93, R95). -/
def indexOf (s : State) (i : Nat) : Int :=
  i * low32 s.arg3 + s.arg0.toInt / 2 ^ (shiftOf s i).toNat % 256

/-- The element address of lane `i` (20_memory.md R43). -/
def addressOf (s : State) (i : Nat) : Word := s.arg1 + BitVec.ofInt 64 (indexOf s i)

/-- The number of lanes (41_tabhash.md R92, R99). -/
def laneCount (s : State) : Nat := (low32 s.arg2).toNat

/-- Lane `i` has a legal shift amount (41_tabhash.md R94). -/
abbrev shiftLegal (s : State) (i : Nat) : Prop := 0 ≤ shiftOf s i ∧ shiftOf s i ≤ 63

/-- Lane `i` has an index inside the table the host declared (41_tabhash.md R95). -/
abbrev indexLegal (s : State) (i : Nat) : Prop :=
  0 ≤ indexOf s i ∧ indexOf s i < low32 s.arg2 * low32 s.arg3

/-- Lane `i` does not fail. -/
abbrev laneLegal (s : State) (i : Nat) : Prop := shiftLegal s i ∧ indexLegal s i

/-- The capacity operand is one of the 31 legal values (43_probe.md R117). -/
abbrev capacityIs (s : State) (k : Nat) : Prop := k ≤ 30 ∧ low32 s.arg4 = 2 ^ k

/-- The machine with another attempt number in `ARG2`. -/
def atAttempt (s : State) (m : Nat) : State := { s with arg2 := BitVec.ofNat 64 m }

/-- The value a window location reads as (10_state.md R30). -/
def locationValue (s : State) (off : Nat) : Word :=
  if off = 0x00 then s.arg0 else if off = 0x08 then s.arg1 else if off = 0x10 then s.arg2
  else if off = 0x18 then s.arg3 else if off = 0x20 then s.arg4 else if off = 0x28 then s.res
  else if off = 0x30 then s.status else if off = 0x38 then s.errinfo
  else if off = 0x48 then 0x000000010000000F else 0

/-- What a write to a window location other than `CMD` leaves (10_state.md R30). -/
def locationWritten (s : State) (off : Nat) (v : Word) : State :=
  if off = 0x00 then { s with arg0 := v } else if off = 0x08 then { s with arg1 := v }
  else if off = 0x10 then { s with arg2 := v } else if off = 0x18 then { s with arg3 := v }
  else if off = 0x20 then { s with arg4 := v } else s

end Sys2Proof.Claims

open Sys2Proof.Claims

/-! ### Encoding and the step -/

/-- 30_encoding.md R62: the five legal command words, written out. -/
def Obligations.LegalWordsDecode : Prop :=
  decode 0x0000000000000001 = .command .modmul ∧ decode 0x0000000000000002 = .command .tabhash ∧
  decode 0x0000000000000003 = .command .unihash ∧
  decode 0x0000000000000004 = .command (.probe false) ∧
  decode 0x0000000000000104 = .command (.probe true)

/-- 30_encoding.md R62: a word selects a command exactly when it matches that command's row, and the
legal words are exactly five. -/
def Obligations.DecodeFollowsOpcodeMap : Prop :=
  ∀ w : Word,
    (decode w = .command .modmul ↔ w &&& 0xFFFFFFFFFFFFFFFF = 0x0000000000000001) ∧
    (decode w = .command .tabhash ↔ w &&& 0xFFFFFFFFFFFFFFFF = 0x0000000000000002) ∧
    (decode w = .command .unihash ↔ w &&& 0xFFFFFFFFFFFFFFFF = 0x0000000000000003) ∧
    ((∃ sp, decode w = .command (.probe sp)) ↔ w &&& 0xFFFFFFFFFFFFFEFF = 0x0000000000000004) ∧
    (∀ sp, decode w = .command (.probe sp) → sp = w.getLsbD 8) ∧
    ((∃ i, decode w = .command i) ↔
      w = 0x001 ∨ w = 0x002 ∨ w = 0x003 ∨ w = 0x004 ∨ w = 0x104)

/-- 30_encoding.md R61, R62, R70: decoding and encoding are inverse to each other, so no bit of a
command word is dropped. -/
def Obligations.DecodeAndEncodeAreInverse : Prop :=
  (∀ i : Instr, i.wf = true → decode (encode i) = .command i) ∧
  ∀ (w : Word) (i : Instr), decode w = .command i → encode i = w

/-- 30_encoding.md R67: which words are illegal, and that one runs no unit and ends with E_CMD,
its datum the word itself. -/
def Obligations.IllegalWordRaisesCmdError : Prop :=
  ∀ w : Word,
    ((∀ row ∈ opcodeMap, w &&& row.mask ≠ row.pattern) ↔
      ((w.extractLsb' 0 8).toNat = 0x00 ∨ 0x05 ≤ (w.extractLsb' 0 8).toNat) ∨
      (w.getLsbD 8 = true ∧ (w.extractLsb' 0 8).toNat ≠ 0x04) ∨ w >>> 9 ≠ 0) ∧
    ((∀ row ∈ opcodeMap, w &&& row.mask ≠ row.pattern) →
      ∀ (s : State) (host : Nat) (rest : List Event), s.pending = .busWrite host 64 0x40 w :: rest →
        step s = .next (raises { s with pending := rest } 8 w))

/-- 10_state.md R35, 30_encoding.md R70: a step at a write to `CMD` whose word decodes to a command
is that command's meaning; around it the step only takes the write from the pending events. -/
def Obligations.StepRunsDecodedCommand : Prop :=
  ∀ (s : State) (host : Nat) (w : Word) (rest : List Event) (i : Instr),
    s.pending = .busWrite host 64 0x40 w :: rest → decode w = .command i →
    step s = exec i { s with pending := rest }

/-- 60_exceptions.md section 2 ("Nothing happens between accesses", an inference the spec marks as
its own; the model's idle step is log entry 3). -/
def Obligations.IdleBlockKeepsItsState : Prop :=
  ∀ s : State, s.pending = [] → step s = .next s

/-! ### The register window -/

/-- 10_state.md R30, 20_memory.md R45: the register window's map, and that an access of another
width or at another offset is refused. -/
def Obligations.RegisterWindowMap : Prop :=
  ∀ (s : State) (host off : Nat) (rest : List Event),
    (off % 8 = 0 → off ≤ 0xF8 →
      (s.pending = .busRead host 64 off :: rest →
        step s = .next { s with
          pending := rest, returned := s.returned ++ [⟨host, off, locationValue s off⟩] }) ∧
      ∀ v, s.pending = .busWrite host 64 off v :: rest →
        (off ≠ 0x40 → step s = .next (locationWritten { s with pending := rest } off v)) ∧
        (off = 0x40 →
          (∀ i, decode v = .command i → step s = exec i { s with pending := rest }) ∧
          ∀ why, decode v = .illegal why →
            step s = .next (raises { s with pending := rest } 8 v))) ∧
    ∀ width, width ≠ 64 ∨ off % 8 ≠ 0 →
      (s.pending = .busRead host width off :: rest →
        step s = .refused (.accessNotAccepted width off)) ∧
      ∀ v, s.pending = .busWrite host width off v :: rest →
        step s = .refused (.accessNotAccepted width off)

/-- 10_state.md R28: `PMOD` reads as 4294967311 and a write to it does nothing. -/
def Obligations.PmodIsConstant : Prop :=
  ∀ (s : State) (host : Nat) (rest : List Event),
    (s.pending = .busRead host 64 0x48 :: rest → ∃ t, step s = .next t ∧
      t.returned = s.returned ++ [⟨host, 0x48, BitVec.ofNat 64 4294967311⟩]) ∧
    ∀ v, s.pending = .busWrite host 64 0x48 v :: rest → step s = .next { s with pending := rest }

/-- 20_memory.md section 2, 10_state.md section 5: the window ends at 0xF8; that an access beyond it
is refused is the model's reading (DEDUCED, log entry 8). -/
def Obligations.AccessBeyondWindowRefused : Prop :=
  ∀ (s : State) (host width off : Nat) (rest : List Event), 256 ≤ off →
    (s.pending = .busRead host width off :: rest →
      step s = .refused (.accessNotAccepted width off)) ∧
    ∀ v, s.pending = .busWrite host width off v :: rest →
      step s = .refused (.accessNotAccepted width off)

/-! ### Reset, the invariant, and the whole machine -/

/-- 10_state.md R33: after reset every register holds zero, `PMOD` reads its constant, and the table
memory is not affected. -/
def Obligations.ResetClearsRegisters : Prop :=
  (State.reset.arg0 = 0 ∧ State.reset.arg1 = 0 ∧ State.reset.arg2 = 0 ∧ State.reset.arg3 = 0 ∧
    State.reset.arg4 = 0 ∧ State.reset.res = 0 ∧ State.reset.status = 0 ∧
    State.reset.errinfo = 0 ∧ windowRead State.reset 0x48 = 0x000000010000000F) ∧
  ∀ (s : State) (rest : List Event), s.pending = .reset :: rest → ∃ t, step s = .next t ∧
    t.arg0 = 0 ∧ t.arg1 = 0 ∧ t.arg2 = 0 ∧ t.arg3 = 0 ∧ t.arg4 = 0 ∧ t.res = 0 ∧ t.status = 0 ∧
    t.errinfo = 0 ∧ windowRead t 0x48 = 0x000000010000000F ∧ t.tm = s.tm ∧ t.pending = rest ∧
    t.returned = s.returned

/-- The invariant `Inv` holds at reset. Its clause on what is stored where rests on log entries 5
and 6. -/
def Obligations.ResetMeetsTheInvariant : Prop := Inv State.reset

/-- Every step keeps `Inv`: TM stays canonical, made of whole elements the platform backs
(log entries 5 and 6), `STATUS` stays one of its values, and `ERRINFO` is zero without an error. -/
def Obligations.StepKeepsTheInvariant : Prop :=
  ∀ s t : State, Inv s → step s = .next t → Inv t

/-- The machine stops only at a window access that is not accepted, and then by that name; every
other step answers a next state (20_memory.md section 2, 60_exceptions.md section 2; the edge of the
window is log entry 8). -/
def Obligations.StepStopsOnlyAtUnacceptedAccess : Prop :=
  ∀ s : State,
    ((∃ t, step s = .next t) ∧ ∀ host width off v rest,
      s.pending = .busRead host width off :: rest ∨
        s.pending = .busWrite host width off v :: rest →
      width = 64 ∧ off % 8 = 0 ∧ off < 256) ∨
    ∃ host width off v rest, ¬ (width = 64 ∧ off % 8 = 0 ∧ off < 256) ∧
      (s.pending = .busRead host width off :: rest ∨
        s.pending = .busWrite host width off v :: rest) ∧
      step s = .refused (.accessNotAccepted width off)

/-- 60_exceptions.md R143: a write to `CMD`, whatever the word, ends one of two ways, and changes
nothing but `RES`, `STATUS` and `ERRINFO`. (The model's own counter of unspecified elements may
advance: log entry 4.) -/
def Obligations.CommandEndsOneOfTwoWays : Prop :=
  ∀ (s : State) (host : Nat) (w : Word) (rest : List Event),
    s.pending = .busWrite host 64 0x40 w :: rest →
    ∃ t, step s = .next t ∧
      ((t.status = 0x0000000000000001 ∧ t.errinfo = 0) ∨
        (t.res = s.res ∧ (t.status = 0x12 ∨ t.status = 0x22 ∨ t.status = 0x32 ∨ t.status = 0x42 ∨
          t.status = 0x52 ∨ t.status = 0x62 ∨ t.status = 0x72 ∨ t.status = 0x82))) ∧
      t.arg0 = s.arg0 ∧ t.arg1 = s.arg1 ∧ t.arg2 = s.arg2 ∧ t.arg3 = s.arg3 ∧ t.arg4 = s.arg4 ∧
      t.tm = s.tm ∧ t.returned = s.returned ∧ t.pending = rest

/-- The frame of the four commands (10_state.md section 2, 60_exceptions.md section 2): no argument
register, no byte of table memory and no pending event changes; only TABHASH can advance the model's
counter of unspecified elements (log entry 4). -/
def Obligations.CommandsChangeOnlyResultRegisters : Prop :=
  ∀ (i : Instr) (s t : State), exec i s = .next t →
    t.arg0 = s.arg0 ∧ t.arg1 = s.arg1 ∧ t.arg2 = s.arg2 ∧ t.arg3 = s.arg3 ∧ t.arg4 = s.arg4 ∧
    (∀ a, t.tm.byteAt a = s.tm.byteAt a) ∧ t.tm = s.tm ∧ t.pending = s.pending ∧
    t.returned = s.returned ∧ (i ≠ .tabhash ∨ t.status ≠ 0x01 → t.draws = s.draws)

/-- 10_state.md R25: what `STATUS` holds after a command, and that nothing but a command and reset
writes it. -/
def Obligations.StatusRegisterFields : Prop :=
  ∀ (s t : State) (e : Event) (rest : List Event), s.pending = e :: rest → step s = .next t →
    (∀ host w, e = .busWrite host 64 0x40 w →
      (t.status.getLsbD 0 = true ↔ t.status.getLsbD 1 = false) ∧
      t.status.extractLsb' 2 2 = 0 ∧ t.status >>> 8 = 0 ∧
      (t.status.getLsbD 1 = false → t.status.extractLsb' 4 4 = 0) ∧
      (t.status.getLsbD 1 = true → 1 ≤ (t.status.extractLsb' 4 4).toNat ∧
        (t.status.extractLsb' 4 4).toNat ≤ 8 ∧ t.res = s.res)) ∧
    (e = .reset → t.status = 0) ∧
    ((∀ host w, e ≠ .busWrite host 64 0x40 w) → e ≠ .reset →
      t.status = s.status ∧ t.res = s.res ∧ t.errinfo = s.errinfo)

/-- 00_scope.md R3: a command's outcome is a function of its operands and, for TABHASH, of the table
contents; nothing an earlier command left matters. (Where an unspecified element is read, the model
takes the same free values only from the same counter: log entry 4.) -/
def Obligations.CommandsArePureFunctions : Prop :=
  ∀ (i : Instr) (s s' : State), s.arg0 = s'.arg0 → s.arg1 = s'.arg1 → s.arg2 = s'.arg2 →
    s.arg3 = s'.arg3 → s.arg4 = s'.arg4 → s.tm = s'.tm → s.draws = s'.draws → sameOutcome i s s'

/-- 60_exceptions.md section 2: an error ends one command and nothing more; every command that follows
ends as it would have without the failed one. For a TABHASH that reads elements without a specified
value this rests on the model's choice (DESIGN CHOICE, log entry 4): a failing TABHASH forgets its
draws, so the counter is what it was, and equal counters give equal free values. -/
def Obligations.ErrorsAreNotSticky : Prop :=
  ∀ (s t : State) (host : Nat) (w : Word) (rest : List Event),
    s.pending = .busWrite host 64 0x40 w :: rest → step s = .next t → t.status.getLsbD 1 = true →
    ∀ i, sameOutcome i t s

/-- 10_state.md section 2, 20_memory.md section 1: a register a command does not list has no effect
on it, and only TABHASH reads the table memory. -/
def Obligations.UnlistedRegistersHaveNoEffect : Prop :=
  ∀ s s' : State,
    (s.arg0 = s'.arg0 → s.arg1 = s'.arg1 → s.arg2 = s'.arg2 →
      sameOutcome .modmul s s' ∧ sameOutcome .unihash s s') ∧
    (s.arg0 = s'.arg0 → s.arg1 = 0 → s'.arg1 = 0 → sameOutcome .tabhash s s') ∧
    (s.arg0 = s'.arg0 → s.arg2 = s'.arg2 → s.arg3 = s'.arg3 → s.arg4 = s'.arg4 →
      sameOutcome (.probe false) s s' ∧
      (s.arg1 = s'.arg1 → sameOutcome (.probe true) s s'))

/-- 10_state.md section 2: bits [63:32] of a register that holds a 32-bit operand are ignored. -/
def Obligations.UpperHalvesAreIgnored : Prop :=
  ∀ s s' : State, s.arg1 = s'.arg1 → low32 s.arg2 = low32 s'.arg2 → low32 s.arg3 = low32 s'.arg3 →
    low32 s.arg4 = low32 s'.arg4 →
    (∀ sp, low32 s.arg0 = low32 s'.arg0 → sameOutcome (.probe sp) s s') ∧
    (s.arg0 = s'.arg0 → s.tm = s'.tm → s.draws = s'.draws → sameOutcome .tabhash s s')

/-- A host's store to the table memory (00_scope.md section 4, 20_memory.md section 1): the stored
element reads back if the platform backs it, every byte outside it reads as before, and no register
changes. That a store to an element that is not backed changes nothing is the model's choice
(DESIGN CHOICE, log entry 5). -/
def Obligations.HostStoreWritesOneElement : Prop :=
  ∀ (s : State) (host : Nat) (ea v : Word) (rest : List Event),
    s.pending = .memWrite host ea v :: rest →
    ∃ m : Memory, step s = .next { s with pending := rest, tm := m } ∧
      m.elementAt ea = (if Config.tmDomain ea = true then some v else s.tm.elementAt ea) ∧
      (Config.tmDomain ea = true ∨ m = s.tm) ∧
      (∀ a, a < 8 * ea.toNat ∨ 8 * ea.toNat + 8 ≤ a → m.byteAt a = s.tm.byteAt a) ∧
      ∀ ea', ea' ≠ ea → m.elementAt ea' = s.tm.elementAt ea'

/-! ### MODMUL -/

/-- 40_modmul.md R80. -/
def Obligations.ModmulResult : Prop :=
  decode 0x0000000000000001 = .command .modmul ∧ ∀ s : State,
    (0 < s.arg2.toInt → exec .modmul s =
      .next (returns s (BitVec.ofInt 64 (s.arg0.toInt * s.arg1.toInt % s.arg2.toInt)))) ∧
    (s.arg2.toInt ≤ 0 → exec .modmul s = .next (raises s 1 s.arg2))

/-- 40_modmul.md R86: the shift-and-add function gives the exact residue for every modulus, and the
laws hold. -/
def Obligations.ModMulIsExactResidue : Prop :=
  ∀ a x p : Int, -2 ^ 63 ≤ a → a < 2 ^ 63 → -2 ^ 63 ≤ x → x < 2 ^ 63 → 1 ≤ p → p < 2 ^ 63 →
    modMul a x p = .ok (a * x % p) ∧ 0 ≤ a * x % p ∧ a * x % p < p ∧
    modMul 1 x p = .ok (Int.tmod (Int.tmod x p + p) p) ∧ modMul 0 x p = .ok 0 ∧
    modMul a 0 p = .ok 0

/-- 40_modmul.md section 2: `n` passes of the loop are enough for a factor of `n` bits, and its
invariant gives the residue. -/
def Obligations.ShiftAddLoopMultiplies : Prop :=
  ∀ n p an xn res : Nat, 0 < p → xn < 2 ^ n → res < p →
    shiftAdd n p an xn res = (res + an * xn) % p

/-! ### UNIHASH -/

/-- 42_unihash.md R105: UNIHASH always succeeds with the exact residue. -/
def Obligations.UnihashResult : Prop :=
  decode 0x0000000000000003 = .command .unihash ∧ ∀ s : State,
    exec .unihash s = .next (returns s
      (BitVec.ofInt 64 ((s.arg1.toInt * s.arg0.toInt + s.arg2.toInt) % 4294967311)))

/-- 42_unihash.md R106: UNIHASH is MODMUL by `P`, plus `b`, normalised into [0, P). -/
def Obligations.UnihashIsModmulPlusB : Prop :=
  ∀ s : State, ∃ t u, exec .unihash s = .next t ∧
    exec .modmul { s with arg0 := s.arg1, arg1 := s.arg0, arg2 := 4294967311 } = .next u ∧
    u.status = 0x01 ∧ t.status = 0x01 ∧
    t.res = BitVec.ofInt 64 ((u.res.toInt + s.arg2.toInt) % 4294967311)

/-- 42_unihash.md R111: the result lies in [0, P), can exceed 32 bits, and depends on the three
operands only. -/
def Obligations.UnihashRange : Prop :=
  (∀ s t : State, exec .unihash s = .next t →
    t.res.toNat < 4294967311 ∧ t.res >>> 33 = 0 ∧ t.res.toNat ≤ 0x10000000E) ∧
  (∀ j : Nat, j ≤ 14 → ∃ s t : State, exec .unihash s = .next t ∧ t.res.toNat = 2 ^ 32 + j) ∧
  ∀ s s' t t' : State, s.arg0 = s'.arg0 → s.arg1 = s'.arg1 → s.arg2 = s'.arg2 →
    exec .unihash s = .next t → exec .unihash s' = .next t' → t.res = t'.res

/-! ### TABHASH -/

/-- 41_tabhash.md R91: with the null handle TABHASH gives `keyHash` back and cannot fail. -/
def Obligations.TabhashNullHandleGivesKey : Prop :=
  ∀ s : State, s.arg1 = 0 → exec .tabhash s = .next (returns s s.arg0)

/-- 41_tabhash.md R99: with no lanes the result is 0. -/
def Obligations.TabhashWithoutLanesGivesZero : Prop :=
  ∀ s : State, s.arg1 ≠ 0 → low32 s.arg2 ≤ 0 → exec .tabhash s = .next (returns s 0)

/-- 41_tabhash.md R93, R96: when no lane fails and every selected element has a value, the result is
the XOR of the selected elements. -/
def Obligations.TabhashXorsSelectedElements : Prop :=
  ∀ (s : State) (element : Nat → Word), s.arg1 ≠ 0 →
    (∀ i < laneCount s, laneLegal s i ∧ s.tm.elementAt (addressOf s i) = some (element i)) →
    exec .tabhash s = .next (returns s
      ((List.range (laneCount s)).foldl (fun acc i => acc ^^^ element i) 0))

/-- 41_tabhash.md R94: the lowest failing lane is reported; a shift amount outside [0, 63] is E_SHIFT,
whatever the index would be. -/
def Obligations.TabhashReportsBadShift : Prop :=
  ∀ (s : State) (i : Nat), s.arg1 ≠ 0 → i < laneCount s → (∀ j < i, laneLegal s j) →
    ¬ shiftLegal s i → exec .tabhash s = .next (raises s 7 (BitVec.ofInt 64 (shiftOf s i)))

/-- 41_tabhash.md R95: the lowest failing lane is reported; an index outside
`[0, tableCount × bucketSize)` is E_INDEX. (That no index fails with `bucketSize >= 256`, which the
rule marks as derived, is part of `TabhashUsefulShapeSucceeds`.) -/
def Obligations.TabhashReportsBadIndex : Prop :=
  ∀ (s : State) (i : Nat), s.arg1 ≠ 0 → i < laneCount s → (∀ j < i, laneLegal s j) →
    shiftLegal s i → ¬ indexLegal s i →
    exec .tabhash s = .next (raises s 6 (BitVec.ofInt 64 (indexOf s i)))

/-- When no lane fails TABHASH completes whatever the table memory holds; elements without a value
are free values (log entry 4), at most one per lane. It holds for every value of the counter. -/
def Obligations.TabhashCompletesOnLegalLanes : Prop :=
  ∀ s : State, s.arg1 ≠ 0 → (∀ i < laneCount s, laneLegal s i) →
    ∃ (v : Word) (n : Nat), n ≤ laneCount s ∧
      exec .tabhash s = .next { returns s v with draws := s.draws + n }

/-- The element of a one-lane table that has no specified value is a free value
(20_memory.md section 3; 93_implementation_defined.md section 1; log entry 4). It holds for every
value of the counter and of `Config.freeElement`. -/
def Obligations.UnspecifiedElementIsFree : Prop :=
  ∀ s : State, s.arg1 ≠ 0 → laneCount s = 1 → laneLegal s 0 →
    s.tm.elementAt (addressOf s 0) = none →
    exec .tabhash s =
      .next { returns s (Config.freeElement s.draws) with draws := s.draws + 1 }

/-- 41_tabhash.md section 2 (inferences the spec marks as its own): with `bucketSize >= 256` no index
fails, and if also every shift amount is legal the command succeeds. -/
def Obligations.TabhashUsefulShapeSucceeds : Prop :=
  ∀ s : State, s.arg1 ≠ 0 → 1 ≤ low32 s.arg2 → 256 ≤ low32 s.arg3 →
    (∃ t, exec .tabhash s = .next t ∧ t.status ≠ 0x62) ∧
    (0 ≤ low32 s.arg4 → (low32 s.arg2 - 1) * low32 s.arg4 ≤ 63 →
      ∃ t, exec .tabhash s = .next t ∧ t.status = 0x01)

/-- 41_tabhash.md R101: the outcome is a function of the operands and of the elements the lanes
select. (For selected elements without a value the free values come from the counter: log entry 4.) -/
def Obligations.TabhashDependsOnSelectedElements : Prop :=
  ∀ s s' : State, s.arg0 = s'.arg0 → s.arg1 = s'.arg1 → s.arg2 = s'.arg2 → s.arg3 = s'.arg3 →
    s.arg4 = s'.arg4 →
    (∀ i < laneCount s, laneLegal s i →
      s.tm.elementAt (addressOf s i) = s'.tm.elementAt (addressOf s i)) →
    (s.draws = s'.draws ∨
      ∀ i < laneCount s, laneLegal s i → (s.tm.elementAt (addressOf s i)).isSome) →
    sameOutcome .tabhash s s'

/-! ### PROBE -/

/-- 43_probe.md R117. -/
def Obligations.ProbeRejectsBadCapacity : Prop :=
  ∀ (s : State) (sp : Bool),
    (low32 s.arg4 ≤ 0 ∨ s.arg4.setWidth 32 &&& (s.arg4.setWidth 32 - 1) ≠ 0) →
    exec (.probe sp) s = .next (raises s 2 (BitVec.ofInt 64 (low32 s.arg4)))

/-- 43_probe.md section 2 (an inference the spec marks as its own): the capacities the model accepts
are the powers of two from 2^0 to 2^30. -/
def Obligations.LegalCapacitiesArePowersOfTwo : Prop :=
  ∀ s : State, (capacityLegal (low32 s.arg4) = true ↔ ∃ k, capacityIs s k) ∧
    ((0 < low32 s.arg4 ∧ s.arg4.setWidth 32 &&& (s.arg4.setWidth 32 - 1) = 0) ↔
      ∃ k, capacityIs s k)

/-- 43_probe.md R118: an attempt below 1 is E_ATTEMPT; there is no upper limit. -/
def Obligations.ProbeRejectsBadAttempt : Prop :=
  ∀ (s : State) (sp : Bool) (k : Nat), capacityIs s k →
    (low32 s.arg2 < 1 →
      exec (.probe sp) s = .next (raises s 3 (BitVec.ofInt 64 (low32 s.arg2)))) ∧
    (1 ≤ low32 s.arg2 → ∃ t, exec (.probe sp) s = .next t ∧ t.status ≠ 0x32 ∧ t.status ≠ 0x22)

/-- 43_probe.md R119: an unrecognised tag is E_PTYPE, whether or not a secondary hash is present. -/
def Obligations.ProbeRejectsUnknownTag : Prop :=
  ∀ (s : State) (sp : Bool) (k : Nat), capacityIs s k → 1 ≤ low32 s.arg2 →
    (low32 s.arg0 ≠ 0 → low32 s.arg0 ≠ 1 →
      exec (.probe sp) s = .next (raises s 4 (BitVec.ofInt 64 (low32 s.arg0)))) ∧
    (low32 s.arg0 = 0 ∨ low32 s.arg0 = 1 → ∃ t, exec (.probe sp) s = .next t ∧ t.status ≠ 0x42)

/-- 43_probe.md section 3: quadratic probing, with the exact triangular offset, for both command
words. -/
def Obligations.ProbeQuadraticIndex : Prop :=
  ∀ (s : State) (sp : Bool) (k : Nat), capacityIs s k → 1 ≤ low32 s.arg2 → low32 s.arg0 = 0 →
    ∃ off : Int, 2 * off = low32 s.arg2 * (low32 s.arg2 + 1) ∧
      exec (.probe sp) s =
        .next (returns s (BitVec.ofInt 64 ((low32 s.arg3 + off) % low32 s.arg4)))

/-- 43_probe.md R124, with the step of R123: double hashing. -/
def Obligations.ProbeDoubleHashIndex : Prop :=
  ∀ (s : State) (k : Nat), capacityIs s k → 1 ≤ low32 s.arg2 → low32 s.arg0 = 1 →
    exec (.probe true) s = .next (returns s (BitVec.ofInt 64
      ((low32 s.arg3 + low32 s.arg2 * ((s.arg1.toInt.natAbs ||| 1 : Nat) : Int))
        % low32 s.arg4)))

/-- 43_probe.md R126: a missing secondary hash, a present and unused one, and the value 0. -/
def Obligations.ProbeSecondaryHashPresence : Prop :=
  ∀ (s : State) (k : Nat), capacityIs s k → 1 ≤ low32 s.arg2 →
    (low32 s.arg0 = 1 → exec (.probe false) s = .next (raises s 5 0)) ∧
    (low32 s.arg0 = 0 → ∃ v, ∀ h, exec (.probe true) { s with arg1 := h } =
        .next (returns { s with arg1 := h } v) ∧ exec (.probe false) s = .next (returns s v)) ∧
    (low32 s.arg0 = 1 → s.arg1 = 0 → exec (.probe true) s =
      .next (returns s (BitVec.ofInt 64 ((low32 s.arg3 + low32 s.arg2) % low32 s.arg4))))

/-- 43_probe.md section 5 (an inference the spec marks as its own): a successful PROBE gives an index
below the capacity. -/
def Obligations.ProbeIndexBelowCapacity : Prop :=
  ∀ (s t : State) (sp : Bool), exec (.probe sp) s = .next t → t.status = 0x01 →
    (t.res.toNat : Int) < low32 s.arg4 ∧ low32 s.arg4 ≤ 2 ^ 30 ∧ t.res >>> 30 = 0

/-- 43_probe.md section 4: a secondary hash and its negative give the same outcome, and so do an even
`h >= 0`, `h + 1` and their negatives (the steps are the same odd number). -/
def Obligations.OddifiedHashesProbeAlike : Prop :=
  ∀ s : State, sameOutcome (.probe true) { s with arg1 := - s.arg1 } s ∧
    (0 ≤ s.arg1.toInt → s.arg1.toInt % 2 = 0 →
      sameOutcome (.probe true) { s with arg1 := s.arg1 + 1 } s ∧
      sameOutcome (.probe true) { s with arg1 := - (s.arg1 + 1) } s)

/-- 43_probe.md section 5 (a), an inference the spec marks as its own, with POH's full-cycle
coverage: the indices of attempts 1..c are all of [0, c), each once; attempt `c` gives the initial
slot; attempt `m + c` repeats attempt `m`. -/
def Obligations.DoubleHashingCoversEverySlot : Prop :=
  ∀ (s : State) (k : Nat), capacityIs s k → low32 s.arg0 = 1 →
    ∃ index : Nat → Nat,
      (∀ m, 1 ≤ m → m < 2 ^ 31 → exec (.probe true) (atAttempt s m) =
        .next (returns (atAttempt s m) (BitVec.ofNat 64 (index m)))) ∧
      (∀ m m', 1 ≤ m → m ≤ 2 ^ k → 1 ≤ m' → m' ≤ 2 ^ k → index m = index m' → m = m') ∧
      (∀ m, index m < 2 ^ k) ∧
      (∀ j < 2 ^ k, ∃ m, 1 ≤ m ∧ m ≤ 2 ^ k ∧ index m = j) ∧
      ((index (2 ^ k) : Nat) : Int) = low32 s.arg3 % 2 ^ k ∧
      ∀ m, index (m + 2 ^ k) = index m

/-- 43_probe.md section 5 (b), an inference the spec marks as its own: counting the initial slot as
attempt 0, attempts 0..c-1 visit every slot once; attempt `c` repeats attempt `c - 1`; the initial
slot comes again first at attempt `2c - 1`. -/
def Obligations.QuadraticProbingCoversEverySlot : Prop :=
  ∀ (s : State) (k : Nat), capacityIs s k → low32 s.arg0 = 0 →
    ∃ index : Nat → Nat,
      ((index 0 : Nat) : Int) = low32 s.arg3 % 2 ^ k ∧
      (∀ m sp, 1 ≤ m → m < 2 ^ 31 → exec (.probe sp) (atAttempt s m) =
        .next (returns (atAttempt s m) (BitVec.ofNat 64 (index m)))) ∧
      (∀ m m', m < 2 ^ k → m' < 2 ^ k → index m = index m' → m = m') ∧
      (∀ m, index m < 2 ^ k) ∧
      (∀ j < 2 ^ k, ∃ m < 2 ^ k, index m = j) ∧
      index (2 ^ k) = index (2 ^ k - 1) ∧ index (2 * 2 ^ k - 1) = index 0 ∧
      ∀ m, 1 ≤ m → m < 2 * 2 ^ k - 1 → index m ≠ index 0
end

