-- ==== Sys2Proof/Laws/State.lean ====
section
/-!
SUPPORT. One lemma per field for each update of the state, so that no proof unfolds a record update.
-/
namespace Sys2Proof.Machine
variable (s : State) (v w : Word)

/-! ### The end of a command -/

@[simp] theorem endCommand_arg0 (o : Except Raised Word) : (endCommand o s).arg0 = s.arg0 := by
  cases o <;> rfl
@[simp] theorem endCommand_arg1 (o : Except Raised Word) : (endCommand o s).arg1 = s.arg1 := by
  cases o <;> rfl
@[simp] theorem endCommand_arg2 (o : Except Raised Word) : (endCommand o s).arg2 = s.arg2 := by
  cases o <;> rfl
@[simp] theorem endCommand_arg3 (o : Except Raised Word) : (endCommand o s).arg3 = s.arg3 := by
  cases o <;> rfl
@[simp] theorem endCommand_arg4 (o : Except Raised Word) : (endCommand o s).arg4 = s.arg4 := by
  cases o <;> rfl
@[simp] theorem endCommand_tm (o : Except Raised Word) : (endCommand o s).tm = s.tm := by
  cases o <;> rfl
@[simp] theorem endCommand_draws (o : Except Raised Word) : (endCommand o s).draws = s.draws := by
  cases o <;> rfl
@[simp] theorem endCommand_pending (o : Except Raised Word) :
    (endCommand o s).pending = s.pending := by
  cases o <;> rfl
@[simp] theorem endCommand_returned (o : Except Raised Word) :
    (endCommand o s).returned = s.returned := by
  cases o <;> rfl

@[simp] theorem endCommand_ok_res : (endCommand (.ok v) s).res = v := rfl
@[simp] theorem endCommand_ok_status : (endCommand (.ok v) s).status = 0x01 := rfl
@[simp] theorem endCommand_ok_errinfo : (endCommand (.ok v) s).errinfo = 0 := rfl
@[simp] theorem endCommand_error_res (r : Raised) : (endCommand (.error r) s).res = s.res := rfl
@[simp] theorem endCommand_error_status (r : Raised) :
    (endCommand (.error r) s).status = statusError r.error := rfl
@[simp] theorem endCommand_error_errinfo (r : Raised) :
    (endCommand (.error r) s).errinfo = r.info := rfl

/-! ### Reset of the block -/

@[simp] theorem resetBlock_arg0 : (resetBlock s).arg0 = 0 := rfl
@[simp] theorem resetBlock_arg1 : (resetBlock s).arg1 = 0 := rfl
@[simp] theorem resetBlock_arg2 : (resetBlock s).arg2 = 0 := rfl
@[simp] theorem resetBlock_arg3 : (resetBlock s).arg3 = 0 := rfl
@[simp] theorem resetBlock_arg4 : (resetBlock s).arg4 = 0 := rfl
@[simp] theorem resetBlock_res : (resetBlock s).res = 0 := rfl
@[simp] theorem resetBlock_status : (resetBlock s).status = 0 := rfl
@[simp] theorem resetBlock_errinfo : (resetBlock s).errinfo = 0 := rfl
@[simp] theorem resetBlock_tm : (resetBlock s).tm = s.tm := rfl
@[simp] theorem resetBlock_draws : (resetBlock s).draws = s.draws := rfl
@[simp] theorem resetBlock_pending : (resetBlock s).pending = s.pending := rfl
@[simp] theorem resetBlock_returned : (resetBlock s).returned = s.returned := rfl

/-! ### Writing an argument register -/

@[simp] theorem arg_setArg_same (n : Fin 5) : (s.setArg n v).arg n = v := by
  fin_cases n <;> rfl
theorem arg_setArg_other {m n : Fin 5} (h : m ≠ n) : (s.setArg n v).arg m = s.arg m := by
  fin_cases n <;> fin_cases m <;> first | rfl | exact absurd rfl h
@[simp] theorem setArg_res (n : Fin 5) : (s.setArg n v).res = s.res := by fin_cases n <;> rfl
@[simp] theorem setArg_status (n : Fin 5) : (s.setArg n v).status = s.status := by
  fin_cases n <;> rfl
@[simp] theorem setArg_errinfo (n : Fin 5) : (s.setArg n v).errinfo = s.errinfo := by
  fin_cases n <;> rfl
@[simp] theorem setArg_tm (n : Fin 5) : (s.setArg n v).tm = s.tm := by fin_cases n <;> rfl
@[simp] theorem setArg_draws (n : Fin 5) : (s.setArg n v).draws = s.draws := by
  fin_cases n <;> rfl
@[simp] theorem setArg_pending (n : Fin 5) : (s.setArg n v).pending = s.pending := by
  fin_cases n <;> rfl
@[simp] theorem setArg_returned (n : Fin 5) : (s.setArg n v).returned = s.returned := by
  fin_cases n <;> rfl

/-! ### A write to the window -/

/-- A window write writes one argument register or nothing. -/
theorem windowWrite_cases (off : Nat) :
    (∃ n, windowWrite s off v = s.setArg n v) ∨ windowWrite s off v = s := by
  unfold windowWrite
  split <;> first | exact .inl ⟨_, rfl⟩ | exact .inr rfl

@[simp] theorem windowWrite_res (off : Nat) : (windowWrite s off v).res = s.res := by
  obtain ⟨n, h⟩ | h := windowWrite_cases s v off <;> simp [h]
@[simp] theorem windowWrite_status (off : Nat) : (windowWrite s off v).status = s.status := by
  obtain ⟨n, h⟩ | h := windowWrite_cases s v off <;> simp [h]
@[simp] theorem windowWrite_errinfo (off : Nat) : (windowWrite s off v).errinfo = s.errinfo := by
  obtain ⟨n, h⟩ | h := windowWrite_cases s v off <;> simp [h]
@[simp] theorem windowWrite_tm (off : Nat) : (windowWrite s off v).tm = s.tm := by
  obtain ⟨n, h⟩ | h := windowWrite_cases s v off <;> simp [h]
@[simp] theorem windowWrite_draws (off : Nat) : (windowWrite s off v).draws = s.draws := by
  obtain ⟨n, h⟩ | h := windowWrite_cases s v off <;> simp [h]
@[simp] theorem windowWrite_pending (off : Nat) : (windowWrite s off v).pending = s.pending := by
  obtain ⟨n, h⟩ | h := windowWrite_cases s v off <;> simp [h]
@[simp] theorem windowWrite_returned (off : Nat) :
    (windowWrite s off v).returned = s.returned := by
  obtain ⟨n, h⟩ | h := windowWrite_cases s v off <;> simp [h]

/-! ### A read of the window -/

@[simp] theorem busRead_returned (host off : Nat) : (busRead host off s).returned =
    s.returned ++ [⟨host, off, windowRead s off⟩] := rfl
@[simp] theorem busRead_arg (host off : Nat) (n : Fin 5) :
    (busRead host off s).arg n = s.arg n := by fin_cases n <;> rfl
@[simp] theorem busRead_res (host off : Nat) : (busRead host off s).res = s.res := rfl
@[simp] theorem busRead_status (host off : Nat) : (busRead host off s).status = s.status := rfl
@[simp] theorem busRead_errinfo (host off : Nat) : (busRead host off s).errinfo = s.errinfo := rfl
@[simp] theorem busRead_tm (host off : Nat) : (busRead host off s).tm = s.tm := rfl
@[simp] theorem busRead_draws (host off : Nat) : (busRead host off s).draws = s.draws := rfl
@[simp] theorem busRead_pending (host off : Nat) : (busRead host off s).pending = s.pending := rfl

/-! ### Placing a command -/

@[simp] theorem withFetchWord_pending (nbits n : Nat) : (s.withFetchWord nbits n).pending =
    commandWrite (tableWord nbits n) :: s.pending := rfl
@[simp] theorem withFetchWord_arg (nbits n : Nat) (r : Fin 5) :
    (s.withFetchWord nbits n).arg r = s.arg r := by fin_cases r <;> rfl
@[simp] theorem withFetchWord_tm (nbits n : Nat) : (s.withFetchWord nbits n).tm = s.tm := rfl

end Sys2Proof.Machine
end

