-- ==== Sys2Proof/Laws/Commands.lean ====
section
/-!
SUPPORT. What a command can do, said once: each meaning is `endCommand` of an outcome, and around it
only TABHASH moves the counter of unspecified elements.
-/
namespace Sys2Proof.Machine

/-! ### Operands -/

theorem s32_bounds (v : Word) : -2 ^ 31 ≤ s32 v ∧ s32 v < 2 ^ 31 :=
  ⟨BitVec.le_toInt (w := 32) _, BitVec.toInt_lt (w := 32)⟩

theorem s64_bounds (v : Word) : -2 ^ 63 ≤ s64 v ∧ s64 v < 2 ^ 63 :=
  ⟨BitVec.le_toInt (w := 64) _, BitVec.toInt_lt (w := 64)⟩

/-- `sext64` gives back the pattern `s64` read (00_scope.md R8). -/
@[simp] theorem sext64_s64 (v : Word) : sext64 (s64 v) = v := BitVec.ofInt_toInt

theorem sext64_natCast (n : Nat) : sext64 (n : Int) = zext64 n := by
  simp [sext64, zext64]

/-- `emod` lies in [0, p) (00_scope.md R9). -/
theorem emod_range (v : Int) {p : Int} (hp : 0 < p) : 0 ≤ emod v p ∧ emod v p < p :=
  ⟨Int.emod_nonneg v (by omega), Int.emod_lt_of_pos v hp⟩

/-! ### The error word -/

/-- `STATUS` after an error is one of the eight words of 60_exceptions.md R143. -/
theorem statusError_eq (e : ErrorName) :
    statusError e = BitVec.ofNat 64 (0x02 + 16 * (errorCode e).toNat) := by
  cases e <;> decide

theorem statusError_ne_success (e : ErrorName) : statusError e ≠ 0x01 := by
  cases e <;> decide

/-- A command ends one of two ways (60_exceptions.md R143). -/
theorem endCommand_cases (o : Except Raised Word) (s : State) :
    (∃ v, o = .ok v ∧ endCommand o s = { s with res := v, status := 0x01, errinfo := 0 }) ∨
    (∃ r, o = .error r ∧
      endCommand o s = { s with status := statusError r.error, errinfo := r.info }) := by
  cases o with
  | ok v => exact .inl ⟨v, rfl, rfl⟩
  | error r => exact .inr ⟨r, rfl, rfl⟩

/-! ### The meanings -/

/-- The outcome of a command and the counter after it. -/
def outcomeOf (i : Instr) (s : State) : Except Raised Word × Nat :=
  match i with
  | .modmul => (modmulOutcome s, s.draws)
  | .unihash => (unihashOutcome s, s.draws)
  | .probe sp => (probeOutcome sp s, s.draws)
  | .tabhash =>
    match tabhashOutcome s with
    | .ok (v, draws) => (.ok v, draws)
    | .error e => (.error e, s.draws)

/-- Every command is its outcome, recorded as 60_exceptions.md R143 says. -/
theorem exec_eq (i : Instr) (s : State) : exec i s =
    .next (endCommand (outcomeOf i s).1 { s with draws := (outcomeOf i s).2 }) := by
  cases i with
  | tabhash =>
    simp only [exec, execTabhash, outcomeOf]
    cases tabhashOutcome s <;> rfl
  | _ => rfl

/-- A failing command leaves the counter alone. -/
theorem outcomeOf_error_draws {i : Instr} {s : State} {r : Raised}
    (h : (outcomeOf i s).1 = .error r) : (outcomeOf i s).2 = s.draws := by
  cases i with
  | tabhash =>
    simp only [outcomeOf] at h ⊢
    cases hs : tabhashOutcome s <;> simp_all
  | _ => rfl

/-- MODMUL, UNIHASH and PROBE read no table memory and leave the counter alone. -/
theorem outcomeOf_draws {i : Instr} (s : State) (h : i ≠ .tabhash) :
    (outcomeOf i s).2 = s.draws := by
  cases i with
  | tabhash => exact absurd rfl h
  | _ => rfl

/-- A read of an element that has a value. -/
theorem read_some {m : Memory} {ea v : Word} (h : m.elementAt ea = some v) (draws : Nat) :
    m.read draws ea = (v, draws) := by
  simp [Memory.read, h]

/-- A read of an element that has none. -/
theorem read_none {m : Memory} {ea : Word} (h : m.elementAt ea = none) (draws : Nat) :
    m.read draws ea = (Config.freeElement draws, draws + 1) := by
  simp [Memory.read, h]

/-- A read moves the counter by at most one. -/
theorem read_draws (m : Memory) (draws : Nat) (ea : Word) :
    draws ≤ (m.read draws ea).2 ∧ (m.read draws ea).2 ≤ draws + 1 := by
  cases h : m.elementAt ea <;> simp [Memory.read, h]

/-- A lane that fails ends the command (41_tabhash.md R97). -/
theorem foldLanes_error {tm : Memory} {o : TabOperands} {n i : Nat} {acc : Word} {draws : Nat}
    {e : Raised} (h : laneError o i = some e) :
    foldLanes tm o (n + 1) i acc draws = .error e := by
  simp [foldLanes, h]

/-- A lane that does not fail is folded in (41_tabhash.md R96). -/
theorem foldLanes_step {tm : Memory} {o : TabOperands} {n i : Nat} {acc : Word} {draws : Nat}
    (h : laneError o i = none) : foldLanes tm o (n + 1) i acc draws =
      foldLanes tm o n (i + 1) (acc ^^^ (tm.read draws (laneAddress o i)).1)
        (tm.read draws (laneAddress o i)).2 := by
  simp [foldLanes, h]

end Sys2Proof.Machine
end

