-- ==== Sys2Proof/Laws/Arith.lean ====
section
/-!
SUPPORT. The bit operations of the commands, said in integers.
-/
namespace Sys2Proof.Machine

/-- A small non-negative pattern reads back (00_scope.md R8). -/
theorem toNat_ofInt_small {r : Int} (h0 : 0 ≤ r) (h1 : r < 2 ^ 63) :
    ((BitVec.ofInt 64 r).toNat : Int) = r := by
  rw [BitVec.toNat_ofInt]
  norm_num
  omega

/-- The same pattern, read as signed. -/
theorem toInt_ofInt_small {r : Int} (h0 : 0 ≤ r) (h1 : r < 2 ^ 63) :
    (BitVec.ofInt 64 r).toInt = r := by
  rw [BitVec.toInt_ofInt, Int.bmod]
  omega

/-- `zext_64` of a non-negative integer is its pattern (00_scope.md R8). -/
theorem zext64_toNat {r : Int} (h : 0 ≤ r) : zext64 r.toNat = BitVec.ofInt 64 r := by
  obtain ⟨n, rfl⟩ := Int.eq_ofNat_of_zero_le h
  simp [zext64]

/-- The pattern of `2^k - 1` has the value `2^k - 1`. -/
theorem sext64_mask {k : Nat} (hk : k ≤ 30) : (sext64 ((2 : Int) ^ k - 1)).toNat = 2 ^ k - 1 := by
  have h1 : 1 ≤ 2 ^ k := Nat.one_le_two_pow
  have hle : 2 ^ k ≤ 2 ^ 30 := Nat.pow_le_pow_right (by norm_num) hk
  have e : ((2 : Int) ^ k - 1) = ((2 ^ k - 1 : Nat) : Int) := by push_cast [h1]; rfl
  rw [sext64, e, BitVec.ofInt_natCast, BitVec.toNat_ofNat]
  omega

/-- The AND mask is the residue modulo a power of two, for every integer, negative ones included
(00_scope.md R10, 43_probe.md R122). -/
theorem maskIndex_two_pow (n : Int) {k : Nat} (hk : k ≤ 30) :
    maskIndex n (2 ^ k) = BitVec.ofInt 64 (n % 2 ^ k) := by
  have hn := Int.emod_nonneg n (by positivity : ((2 : Int) ^ k) ≠ 0)
  have hl := Int.emod_lt_of_pos n (by positivity : (0 : Int) < 2 ^ k)
  have hle : (2 : Int) ^ k ≤ 2 ^ 30 := pow_le_pow_right₀ (by norm_num) hk
  have hd : ((2 : Int) ^ k) ∣ 2 ^ 64 := pow_dvd_pow 2 (by omega)
  have h0 := Int.emod_nonneg n (by norm_num : ((2 : Int) ^ 64) ≠ 0)
  apply BitVec.eq_of_toNat_eq
  rw [← Int.natCast_inj, toNat_ofInt_small hn (by omega), maskIndex, BitVec.toNat_and,
    sext64_mask hk, Nat.and_two_pow_sub_one_eq_mod, sext64, BitVec.toNat_ofInt]
  push_cast
  norm_num at h0 hd ⊢
  rw [max_eq_left h0, Int.emod_emod_of_dvd n hd]

/-- The byte of a lane is `floor(keyHash / 2^s) mod 256` (41_tabhash.md R93). -/
theorem laneByte_eq (o : TabOperands) (i : Nat) :
    (laneByte o i : Int) = o.key.toInt / 2 ^ (laneShift o i).toNat % 256 := by
  have hs : (o.key.sshiftRight (laneShift o i).toNat).toInt
      = o.key.toInt / 2 ^ (laneShift o i).toNat := by
    rw [BitVec.toInt_sshiftRight, Int.shiftRight_eq_div_pow]
    norm_cast
  have hm : (255 : Word).toNat = 2 ^ 8 - 1 := by decide
  rw [← hs, laneByte, BitVec.toNat_and, hm, Nat.and_two_pow_sub_one_eq_mod,
    BitVec.toInt_eq_toNat_bmod, Int.bmod]
  omega

/-- A lane fails on its shift, or on its index, or not at all (41_tabhash.md R97). -/
theorem laneError_cases (o : TabOperands) (i : Nat) :
    ((laneShift o i < 0 ∨ laneShift o i > 63) ∧
      laneError o i = some ⟨.shift, sext64 (laneShift o i)⟩) ∨
    ((0 ≤ laneShift o i ∧ laneShift o i ≤ 63) ∧
      (laneIndex o i < 0 ∨ laneIndex o i ≥ o.tableCount * o.bucketSize) ∧
      laneError o i = some ⟨.index, sext64 (laneIndex o i)⟩) ∨
    ((0 ≤ laneShift o i ∧ laneShift o i ≤ 63) ∧
      (0 ≤ laneIndex o i ∧ laneIndex o i < o.tableCount * o.bucketSize) ∧
      laneError o i = none) := by
  unfold laneError
  split
  · next h => exact .inl ⟨h, rfl⟩
  · next h =>
    split
    · next h' => exact .inr (.inl ⟨by omega, h', rfl⟩)
    · next h' => exact .inr (.inr ⟨by omega, by omega, rfl⟩)

/-- PROBE's offset, by tag (43_probe.md R119, R126). -/
theorem probeOffset_cases (sp : Bool) (ty h t : Int) :
    (ty = 0 ∧ probeOffset sp ty h t = .ok (triangular t)) ∨
    (ty = 1 ∧ sp = true ∧ probeOffset sp ty h t = .ok (t * probeStep h)) ∨
    (ty = 1 ∧ sp = false ∧ probeOffset sp ty h t = .error ⟨.nosec, 0⟩) ∨
    (ty ≠ 0 ∧ ty ≠ 1 ∧ probeOffset sp ty h t = .error ⟨.ptype, sext64 ty⟩) := by
  unfold probeOffset
  by_cases h0 : ty = 0
  · simp [h0]
  · by_cases h1 : ty = 1
    · cases sp <;> simp [h1]
    · simp [h0, h1]

end Sys2Proof.Machine
end

