-- ==== Sys2Proof/Laws/Memory.lean ====
section
/-!
SUPPORT. The table memory: a read after a store, that a store leaves every other byte alone, and that
every memory operation keeps the canonical form.
-/
namespace Sys2Proof.Machine

/-! ### Bytes -/

/-- Skipping the cells below an address at or below `a` does not change what `a` reads as. -/
theorem byteAt_skipTo (m : Memory) {a b : Nat} (h : b ≤ a) :
    Memory.byteAt (m.skipTo b) a = m.byteAt a := by
  induction m with
  | nil => rfl
  | cons c m ih =>
    by_cases hc : c.1 < b
    · have hca : c.1 < a := lt_of_lt_of_le hc h
      simpa [Memory.skipTo, hc, Memory.byteAt, hca] using ih
    · simp [Memory.skipTo, hc]

/-- A byte above every cell of `m` reads as what follows `m`. -/
theorem byteAt_append_of_lt {m m' : Memory} {a : Nat} (h : ∀ c ∈ m, c.1 < a) :
    Memory.byteAt (m ++ m') a = Memory.byteAt m' a := by
  induction m with
  | nil => rfl
  | cons c m ih =>
    have hc := h c (by simp)
    simp only [List.cons_append, Memory.byteAt, hc, if_true]
    exact ih fun d hd => h d (by simp [hd])

/-- Below `b`, only the cells below `b` matter. -/
theorem byteAt_takeWhile_append (m : Memory) {m' : Memory} {a b : Nat} (h : a < b)
    (h' : Memory.byteAt m' a = none) :
    Memory.byteAt (m.takeWhile (fun c => c.1 < b) ++ m') a = m.byteAt a := by
  induction m with
  | nil => simpa [Memory.byteAt] using h'
  | cons c m ih =>
    by_cases hc : c.1 < b
    · simp [hc, Memory.byteAt, ih]
    · have h1 : ¬ c.1 < a := by omega
      have h2 : c.1 ≠ a := by omega
      simp [hc, Memory.byteAt, h1, h2, h']

theorem mem_takeWhile_lt {m : Memory} {b : Nat} :
    ∀ c ∈ m.takeWhile (fun c => c.1 < b), c.1 < b := fun c hc => by
  simpa using List.mem_takeWhile_imp hc

theorem mem_elementCells {a : Nat} {v : Word} {c : Host.Cell} (h : c ∈ elementCells a v) :
    a ≤ c.1 ∧ c.1 < a + 8 := by
  simp only [elementCells, List.mem_map, List.mem_range] at h
  obtain ⟨k, hk, rfl⟩ := h
  exact ⟨Nat.le_add_right a k, Nat.add_lt_add_left hk a⟩

/-- The bytes of the stored element. -/
theorem byteAt_store_inside (m : Memory) (ea v : Word) {k : Nat} (hk : k < 8) :
    (m.store ea v).byteAt (elementBase ea + k) = some (v.extractLsb' (8 * k) 8) := by
  have h1 : ∀ c ∈ m.takeWhile (fun c => c.1 < elementBase ea), c.1 < elementBase ea + k :=
    fun c hc => by have := mem_takeWhile_lt c hc; omega
  rw [Memory.store, List.append_assoc, byteAt_append_of_lt h1]
  have : k = 0 ∨ k = 1 ∨ k = 2 ∨ k = 3 ∨ k = 4 ∨ k = 5 ∨ k = 6 ∨ k = 7 := by omega
  obtain rfl | rfl | rfl | rfl | rfl | rfl | rfl | rfl := this <;>
    simp [elementCells, List.range, List.range.loop, Memory.byteAt]

/-- A store leaves every byte outside its element alone. -/
theorem byteAt_store_outside (m : Memory) (ea v : Word) {a : Nat}
    (h : a < elementBase ea ∨ elementBase ea + 8 ≤ a) :
    (m.store ea v).byteAt a = m.byteAt a := by
  rw [Memory.store, List.append_assoc]
  obtain h | h := h
  · refine byteAt_takeWhile_append m h ?_
    have h1 : ¬ elementBase ea < a := by omega
    have h2 : elementBase ea ≠ a := by omega
    simp [elementCells, List.range, List.range.loop, Memory.byteAt, h1, h2]
  · rw [byteAt_append_of_lt (fun c hc => by have := mem_takeWhile_lt c hc; omega),
      byteAt_append_of_lt (fun c hc => by have := (mem_elementCells hc).2; omega),
      byteAt_skipTo m h]

/-! ### Elements -/

theorem bytesFrom_congr {m m' : Memory} : ∀ {a n : Nat},
    (∀ k < n, m.byteAt (a + k) = m'.byteAt (a + k)) → m.bytesFrom a n = m'.bytesFrom a n
  | _, 0, _ => rfl
  | a, n + 1, h => by
    have h0 : m.byteAt a = m'.byteAt a := by simpa using h 0 (Nat.succ_pos n)
    have ih : m.bytesFrom (a + 1) n = m'.bytesFrom (a + 1) n :=
      bytesFrom_congr fun k hk => by
        have := h (k + 1) (by omega)
        rwa [show a + (k + 1) = a + 1 + k by omega] at this
    simp only [Memory.bytesFrom, h0, ih]

/-- The element read by way of `skipTo` is the element. -/
theorem elementAt_eq (m : Memory) (ea : Word) :
    m.elementAt ea = (m.bytesFrom (elementBase ea) 8).map (BitVec.ofNat 64) := by
  rw [Memory.elementAt, bytesFrom_congr fun k _ => byteAt_skipTo m (Nat.le_add_right _ k)]

/-- Memories that agree on the bytes of an element agree on the element. -/
theorem elementAt_congr {m m' : Memory} {ea : Word}
    (h : ∀ k < 8, m.byteAt (elementBase ea + k) = m'.byteAt (elementBase ea + k)) :
    m.elementAt ea = m'.elementAt ea := by
  rw [elementAt_eq, elementAt_eq, bytesFrom_congr h]

/-- Different elements have different bytes. -/
theorem elementBase_disjoint {ea ea' : Word} (h : ea' ≠ ea) :
    elementBase ea' + 8 ≤ elementBase ea ∨ elementBase ea + 8 ≤ elementBase ea' := by
  have : ea'.toNat ≠ ea.toNat := fun e => h (BitVec.eq_of_toNat_eq e)
  unfold elementBase
  omega

/-- A stored element reads back. -/
theorem elementAt_store_same (m : Memory) (ea v : Word) : (m.store ea v).elementAt ea = some v := by
  have hb : ∀ k < 8, (m.store ea v).byteAt (elementBase ea + k)
      = some (v.extractLsb' (8 * k) 8) := fun k hk => byteAt_store_inside m ea v hk
  have h0 := hb 0 (by decide)
  simp only [Nat.add_zero] at h0
  rw [elementAt_eq]
  simp only [Memory.bytesFrom, Nat.add_assoc, Nat.reduceAdd, h0, hb 1 (by decide),
    hb 2 (by decide), hb 3 (by decide), hb 4 (by decide), hb 5 (by decide), hb 6 (by decide),
    hb 7 (by decide), Option.map_some, BitVec.extractLsb'_toNat, Nat.shiftRight_eq_div_pow]
  congr 1
  apply BitVec.eq_of_toNat_eq
  have := v.isLt
  rw [BitVec.toNat_ofNat]
  norm_num
  omega

/-- A store leaves every other element alone. -/
theorem elementAt_store_other (m : Memory) {ea ea' : Word} (v : Word) (h : ea' ≠ ea) :
    (m.store ea v).elementAt ea' = m.elementAt ea' :=
  elementAt_congr fun k hk =>
    byteAt_store_outside m ea v (by have := elementBase_disjoint h; omega)

/-! ### The canonical form -/

theorem wfFrom_iff : ∀ {m : Memory} {lo : Nat}, Memory.wfFrom lo m = true ↔
    (∀ c ∈ m, lo ≤ c.1 ∧ c.1 < memoryBytes) ∧ m.Pairwise fun c d => c.1 < d.1
  | [], lo => by simp [Memory.wfFrom]
  | c :: m, lo => by
    simp only [Memory.wfFrom, Bool.and_eq_true, decide_eq_true_eq, wfFrom_iff (m := m),
      List.forall_mem_cons, List.pairwise_cons]
    constructor
    · rintro ⟨⟨h1, h2⟩, h3, h4⟩
      exact ⟨⟨⟨h1, h2⟩, fun d hd => ⟨by have := (h3 d hd).1; omega, (h3 d hd).2⟩⟩,
        fun d hd => (h3 d hd).1, h4⟩
    · rintro ⟨⟨⟨h1, h2⟩, h3⟩, h4, h5⟩
      exact ⟨⟨h1, h2⟩, fun d hd => ⟨h4 d hd, (h3 d hd).2⟩, h5⟩

/-- The canonical form is: addresses strictly rising and inside TM. -/
theorem wf_iff {m : Memory} : m.wf = true ↔
    (∀ c ∈ m, c.1 < memoryBytes) ∧ m.Pairwise fun c d => c.1 < d.1 := by
  simp [Memory.wf, wfFrom_iff]

theorem mem_skipTo_ge : ∀ {m : Memory} {b : Nat}, m.Pairwise (fun c d => c.1 < d.1) →
    ∀ c ∈ m.skipTo b, b ≤ c.1
  | [], _, _, c, hc => by simp [Memory.skipTo] at hc
  | d :: m, b, h, c, hc => by
    rw [List.pairwise_cons] at h
    by_cases hd : d.1 < b
    · exact mem_skipTo_ge h.2 c (by simpa [Memory.skipTo, hd] using hc)
    · simp only [Memory.skipTo, hd, decide_false, List.dropWhile_cons_of_neg, Bool.false_eq_true,
        not_false_eq_true, List.mem_cons] at hc
      obtain rfl | hc := hc
      · omega
      · have := h.1 c hc; omega

theorem elementCells_pairwise (a : Nat) (v : Word) :
    (elementCells a v).Pairwise fun c d => c.1 < d.1 := by
  simp [elementCells, List.range, List.range.loop]

/-- A store keeps the canonical form. -/
theorem store_wf {m : Memory} (ea v : Word) (h : m.wf = true) : (m.store ea v).wf = true := by
  obtain ⟨hb, hp⟩ := wf_iff.1 h
  have hea := ea.isLt
  refine wf_iff.2 ⟨fun c hc => ?_, ?_⟩
  · simp only [Memory.store, List.mem_append] at hc
    obtain (hc | hc) | hc := hc
    · exact hb c ((List.takeWhile_sublist _).subset hc)
    · have := (mem_elementCells hc).2
      unfold elementBase at this
      unfold memoryBytes
      omega
    · exact hb c ((List.dropWhile_sublist _).subset hc)
  · rw [Memory.store, List.pairwise_append, List.pairwise_append]
    refine ⟨⟨hp.sublist (List.takeWhile_sublist _), elementCells_pairwise _ _, fun c hc d hd => ?_⟩,
      hp.sublist (List.dropWhile_sublist _), fun c hc d hd => ?_⟩
    · exact lt_of_lt_of_le (mem_takeWhile_lt c hc) (mem_elementCells hd).1
    · have hge := mem_skipTo_ge hp d hd
      rw [List.mem_append] at hc
      obtain hc | hc := hc
      · have := mem_takeWhile_lt c hc; omega
      · have := (mem_elementCells hc).2; omega

/-- A host's store keeps the canonical form. -/
theorem hostWrite_wf {m : Memory} (ea v : Word) (h : m.wf = true) :
    (m.hostWrite ea v).wf = true := by
  unfold Memory.hostWrite
  split
  · exact store_wf ea v h
  · exact h

end Sys2Proof.Machine
end

