-- ==== Sys2Proof/Laws/PerInstr.lean ====
section
/-!
SUPPORT. What holds of every command, one lemma per constructor: the word the encoder writes selects
the row of the opcode map that bears the command's mnemonic, and no other.
-/
namespace Sys2Proof.Laws.WordSelectsItsRow

/-- The row of 30_encoding.md R62 a command belongs to. -/
def rowOf : Instr → String
  | .modmul => "MODMUL"
  | .tabhash => "TABHASH"
  | .unihash => "UNIHASH"
  | .probe _ => "PROBE"

/-- The command's word selects exactly the row with its mnemonic. -/
def Statement (i : Instr) : Prop :=
  (selectedRows (encode i)).map OpcodeRow.mnemonic = [rowOf i]

theorem modmul : Statement .modmul := by unfold Statement; decide

theorem tabhash : Statement .tabhash := by unfold Statement; decide

theorem unihash : Statement .unihash := by unfold Statement; decide

theorem probe (sp : Bool) : Statement (.probe sp) := by
  cases sp <;> (unfold Statement; decide)

end Sys2Proof.Laws.WordSelectsItsRow
end

