-- ==== Sys2Proof/Laws/Step.lean ====
section
/-!
SUPPORT. What a step can do, said once: the cases of an event and of a command word.
-/
namespace Sys2Proof.Machine

/-- A command word runs a command or ends with E_CMD (30_encoding.md R70). -/
theorem executeWord_cases (w : Word) (s : State) :
    (∃ i, decode w = .command i ∧ executeWord w s = exec i s) ∨
    (∃ why, decode w = .illegal why ∧
      executeWord w s = .next (endCommand (.error ⟨.cmd, w⟩) s)) := by
  cases h : decode w with
  | command i => exact .inl ⟨i, rfl, by simp [executeWord, h]⟩
  | illegal why => exact .inr ⟨why, rfl, by simp [executeWord, h]⟩

/-- A command word always leads to a next state that ends some outcome. -/
theorem executeWord_next (w : Word) (s : State) :
    ∃ (o : Except Raised Word) (draws : Nat),
      executeWord w s = .next (endCommand o { s with draws := draws }) ∧
      ((∃ r, o = .error r) → draws = s.draws) := by
  obtain ⟨i, -, h⟩ | ⟨why, -, h⟩ := executeWord_cases w s
  · exact ⟨_, _, h.trans (exec_eq i s), fun ⟨r, hr⟩ => outcomeOf_error_draws hr⟩
  · exact ⟨_, s.draws, h, fun _ => rfl⟩

@[simp] theorem accepted_iff (width off : Nat) :
    accepted width off = true ↔ width = 64 ∧ off % 8 = 0 ∧ off < 256 := by
  simp [accepted, and_assoc]

/-- What a step does when an event is pending. -/
theorem step_pending {s : State} {e : Event} {rest : List Event} (h : s.pending = e :: rest) :
    step s = perform e { s with pending := rest } := by
  simp [step, stepEvents, h]

/-- A step that answers a next state does one of these things. -/
theorem step_cases {s t : State} (h : step s = .next t) :
    (s.pending = [] ∧ t = s) ∨
    (∃ host off rest, s.pending = .busRead host 64 off :: rest ∧
      t = busRead host off { s with pending := rest }) ∨
    (∃ host w rest, s.pending = .busWrite host 64 cmdOffset w :: rest ∧
      executeWord w { s with pending := rest } = .next t) ∨
    (∃ host off v rest, s.pending = .busWrite host 64 off v :: rest ∧ off ≠ cmdOffset ∧
      t = windowWrite { s with pending := rest } off v) ∨
    (∃ host ea v rest, s.pending = .memWrite host ea v :: rest ∧
      t = { s with pending := rest, tm := s.tm.hostWrite ea v }) ∨
    (∃ rest, s.pending = .reset :: rest ∧ t = resetBlock { s with pending := rest }) := by
  cases hp : s.pending with
  | nil =>
    simp only [step, stepEvents, hp, Host.Outcome.next.injEq] at h
    exact .inl ⟨rfl, h.symm⟩
  | cons e rest =>
    rw [step_pending hp] at h
    refine .inr ?_
    cases e with
    | busRead host width off =>
      simp only [perform] at h
      split at h
      · next hacc =>
        obtain ⟨rfl, -, -⟩ := (accepted_iff width off).1 hacc
        exact .inl ⟨host, off, rest, rfl, (Host.Outcome.next.inj h).symm⟩
      · cases h
    | busWrite host width off v =>
      simp only [perform] at h
      split at h
      · next hacc =>
        obtain ⟨rfl, -, -⟩ := (accepted_iff width off).1 hacc
        simp only [busWrite] at h
        split at h
        · next hoff => subst hoff; exact .inr (.inl ⟨host, v, rest, rfl, h⟩)
        · next hoff =>
          exact .inr (.inr (.inl ⟨host, off, v, rest, rfl, hoff, (Host.Outcome.next.inj h).symm⟩))
      · cases h
    | memWrite host ea v =>
      exact .inr (.inr (.inr (.inl ⟨host, ea, v, rest, rfl, (Host.Outcome.next.inj h).symm⟩)))
    | reset => exact .inr (.inr (.inr (.inr ⟨rest, rfl, (Host.Outcome.next.inj h).symm⟩)))

/-- What a write to `CMD` does: `Execute(w)` (30_encoding.md R70). -/
theorem step_command {s : State} {host : Nat} {w : Word} {rest : List Event}
    (h : s.pending = .busWrite host 64 0x40 w :: rest) :
    step s = executeWord w { s with pending := rest } := by
  rw [step_pending h]
  rfl

/-- The placed command is the next one to run. -/
theorem step_withFetchWord (s : State) (nbits w : Nat) :
    step (s.withFetchWord nbits w) = executeWord (tableWord nbits w) s := by
  rw [step_command (rest := s.pending) rfl]
  rfl

end Sys2Proof.Machine
end

