-- ==== Sys2Proof/Tests/Slice0.lean ====
section
/-!
SUPPORT. Tests whose expected values come from spec/ (30_encoding.md, 95_test_vectors.md), the smoke
test of the well-formedness checks, and for each obligation a witness that meets its hypotheses.
-/
open Sys2Proof Sys2Proof.Machine Sys2Proof.Claims

namespace Sys2Proof.Tests

/-! ### Helpers -/

/-- The reset state with these argument registers. -/
def start (a0 a1 a2 a3 a4 : Word) : State :=
  { State.reset with arg0 := a0, arg1 := a1, arg2 := a2, arg3 := a3, arg4 := a4 }

/-- A state whose next event is given. -/
def facing (s : State) (e : Event) : State := { s with pending := [e] }

/-- `RES`, `STATUS` and `ERRINFO` after the next step with command word `w`. -/
def outcome (s : State) (w : Nat) : Option (Word × Word × Word) :=
  match step (s.withFetchWord 64 w) with
  | .next t => some (t.res, t.status, t.errinfo)
  | .fault _ => none
  | .refused _ => none

/-- What the next step returns to the host that reads. -/
def readBack (s : State) (off : Nat) : Option (List Word) :=
  match step (facing s (.busRead 0 64 off)) with
  | .next t => some (t.returned.map ReadData.v)
  | .fault _ => none
  | .refused _ => none

/-- Fixture B of 95_test_vectors.md section 2.3: element `j` is 0x1111111111111111 × (j + 1). -/
def fixtureB : Memory :=
  (List.range 8).flatMap fun j =>
    elementCells (8 * (0x2000 + j)) (BitVec.ofNat 64 (0x1111111111111111 * (j + 1)))

/-- The eight elements of Fixture A (95_test_vectors.md section 2.3) that vector VT22 selects. -/
def fixtureA22 : Memory :=
  elementCells (8 * 0x1000) 0x9E3779B97F4A7C15 ++
    elementCells (8 * 0x1100) 0xD5B13338C9C69115 ++
    elementCells (8 * 0x1200) 0x0D2AECB81442A615 ++
    elementCells (8 * 0x1300) 0x44A4A6375EBEBB15 ++
    elementCells (8 * 0x1400) 0x7C1E5FB6A93AD015 ++
    elementCells (8 * 0x1500) 0xB3981935F3B6E515 ++
    elementCells (8 * 0x1600) 0xEB11D2B53E32FA15 ++
    elementCells (8 * 0x17FF) 0xBBCDCBFA53E0A800

/-! ### Decoding: words written out from the fields of 30_encoding.md R61 (ZERO, SP, OPC) -/

theorem test_decode_modmul : decode (0#55 ++ 0#1 ++ 0x01#8) = .command .modmul := by decide
theorem test_decode_tabhash : decode (0#55 ++ 0#1 ++ 0x02#8) = .command .tabhash := by decide
theorem test_decode_unihash : decode (0#55 ++ 0#1 ++ 0x03#8) = .command .unihash := by decide
theorem test_decode_probe : decode (0#55 ++ 0#1 ++ 0x04#8) = .command (.probe false) := by decide
theorem test_decode_probe_sp : decode (0#55 ++ 1#1 ++ 0x04#8) = .command (.probe true) := by decide
/-- VC2, VC4 and VC7 of 95_test_vectors.md section 2.5. -/
theorem test_decode_illegal : decode 0x005 = .illegal .opcode ∧
    decode 0x101 = .illegal .secondaryHashBit ∧ decode 0x204 = .illegal .reservedBits := by decide
/-- spec/opcode_table.json: the four rows, and PROBE with its field set. -/
theorem test_table_words : decodeTableWord 64 1 = some .modmul ∧
    decodeTableWord 64 2 = some .tabhash ∧ decodeTableWord 64 3 = some .unihash ∧
    decodeTableWord 64 4 = some (.probe false) ∧ decodeTableWord 64 0x104 = some (.probe true) ∧
    decodeTableWord 64 5 = none := by decide

/-! ### Well-formedness: a term that each check accepts and one it refuses -/

theorem test_wf_event : eventWf (.busRead 0 64 0xF8) = true ∧ eventWf (.busRead 0 32 0x28) = false ∧
    eventWf (.busWrite 0 64 0x04 0) = false ∧ eventWf (.busWrite 0 64 0x100 0) = false := by decide
/-- 30_encoding.md R72, R73: the pseudo-instructions are well formed; a command without one of its
operands is not. -/
theorem test_wf_operands : scriptWf (expand (.modmul 7 5 11)) = true ∧
    scriptWf [.wr 0 7, .wr 1 5, .cmd .modmul] = false ∧
    scriptWf [.wr 0 1, .wr 2 1, .wr 3 7, .wr 4 32, .cmdRaw 0x104] = false := by decide
/-- 30_encoding.md R73: a TABHASH whose table has not been stored is not well formed. -/
theorem test_wf_table : scriptWf ([.tm 9 5, .tm 10 6] ++ expand (.tabhash 0 9 1 2 8)) = true ∧
    scriptWf (.tm 9 5 :: expand (.tabhash 0 9 1 2 8)) = false := by decide
/-- TM's canonical form: rising addresses, each once, inside TM. -/
theorem test_wf_memory : Memory.wf [(8, 1), (9, 0)] = true ∧ Memory.wf [(9, 0), (8, 1)] = false ∧
    Memory.wf [(8, 1), (8, 2)] = false ∧ Memory.wf [(2 ^ 67, 1)] = false := by decide
/-- 30_encoding.md R71: `cmd PROBE.SP` is `W 0x40 0x104`, `rd PMOD` is `R 0x48`, `wr ARG3` is offset
0x18. -/
theorem test_script_lines : lineEvent 0 (.cmd (.probe true)) = .busWrite 0 64 0x40 0x104 ∧
    lineEvent 0 (.rd .pmod) = .busRead 0 64 0x48 ∧
    lineEvent 0 (.wr 3 7) = .busWrite 0 64 0x18 7 := by decide

/-! ### Commands: vectors of 95_test_vectors.md -/

/-- VM13: `a = x = MIN`, `p = MAX`. -/
theorem test_modmul_vm13 :
    outcome (start 0x8000000000000000 0x8000000000000000 0x7FFFFFFFFFFFFFFF 0 0) 1 =
      some (1, 0x01, 0) := by decide +kernel
/-- VM21: `p = -5`. -/
theorem test_modmul_vm21 : outcome (start 3 4 0xFFFFFFFFFFFFFFFB 0 0) 1 =
    some (0, 0x12, 0xFFFFFFFFFFFFFFFB) := by decide
/-- VU6: the sum passes 2^63 - 1. -/
theorem test_unihash_vu6 : outcome (start 1 1 0x7FFFFFFFFFFFFFFF 0 0) 3 =
    some (0x0000000080000078, 0x01, 0) := by decide
/-- VU14: `a` is negative. -/
theorem test_unihash_vu14 :
    outcome (start 0x0123456789ABCDEF 0x9E3779B97F4A7C15 0x7F4A7C159E3779B9 0 0) 3 =
      some (0x00000000412B63FE, 0x01, 0) := by decide
/-- VT22: lane 7 shifts a negative key by 63. -/
theorem test_tabhash_vt22 :
    outcome { start 0x8000000000000000 0x1000 8 256 9 with tm := fixtureA22 } 2 =
      some (0x9D525FC2CB2E9715, 0x01, 0) := by decide
/-- VT14: lane 0 passes and is folded, lane 1 fails. -/
theorem test_tabhash_vt14 : outcome { start 0x403 0x2000 2 4 8 with tm := fixtureB } 2 =
    some (0, 0x62, 8) := by decide
/-- VQ10: the largest attempt, initial index and capacity. -/
theorem test_probe_vq10 : outcome (start 0 0 2147483647 2147483647 1073741824) 4 =
    some (0x3FFFFFFF, 0x01, 0) := by decide
/-- VD9: double hashing from a negative initial index. -/
theorem test_probe_vd9 : outcome (start 1 6 2 (-100) 64) 0x104 = some (42, 0x01, 0) := by decide
/-- VC9: an illegal command word. -/
theorem test_illegal_vc9 : outcome State.reset 0x8000000000000001 =
    some (0, 0x82, 0x8000000000000001) := by decide
/-- VR2, VR3 and VR7: `PMOD`, `CMD` and an argument register. -/
theorem test_window_reads : readBack State.reset 0x48 = some [0x000000010000000F] ∧
    readBack State.reset 0x40 = some [0] ∧
    readBack (start 0 0 0 0xFFFFFFFFFFFFFFFF 0) 0x18 = some [0xFFFFFFFFFFFFFFFF] := by decide

/-! ### Witnesses: every hypothesis of every obligation can be met -/

theorem witness_DecodeFollowsOpcodeMap :
    (0x104 : Word) &&& 0xFFFFFFFFFFFFFEFF = 4 ∧ decode 0x104 = .command (.probe true) := by decide
theorem witness_DecodeAndEncodeAreInverse :
    (Instr.probe true).wf = true ∧ decode 0x104 = .command (.probe true) := by decide
theorem witness_IllegalWordRaisesCmdError :
    (∀ row ∈ opcodeMap, (0x204 : Word) &&& row.mask ≠ row.pattern) ∧
    (∀ row ∈ opcodeMap, (0x101 : Word) &&& row.mask ≠ row.pattern) ∧
    (∀ row ∈ opcodeMap, (0x005 : Word) &&& row.mask ≠ row.pattern) ∧
    (facing State.reset (.busWrite 3 64 0x40 0x204)).pending = [.busWrite 3 64 0x40 0x204] := by
  decide
theorem witness_StepRunsDecodedCommand :
    (facing State.reset (.busWrite 0 64 0x40 0x104)).pending = [.busWrite 0 64 0x40 0x104] ∧
    decode 0x104 = .command (.probe true) := by decide
theorem witness_IdleBlockKeepsItsState : State.reset.pending = [] := by decide
/-- The last location, `CMD` with a legal and an illegal word, an argument register, a wrong width
and a wrong offset. -/
theorem witness_RegisterWindowMap :
    (0xF8 % 8 = 0 ∧ (0xF8 : Nat) ≤ 0xF8 ∧
      (facing State.reset (.busRead 0 64 0xF8)).pending = [.busRead 0 64 0xF8]) ∧
    ((0x20 : Nat) ≠ 0x40 ∧
      (facing State.reset (.busWrite 0 64 0x20 9)).pending = [.busWrite 0 64 0x20 9]) ∧
    ((facing State.reset (.busWrite 0 64 0x40 1)).pending = [.busWrite 0 64 0x40 1] ∧
      decode 1 = .command .modmul ∧ decode 0 = .illegal .opcode) ∧
    ((32 : Nat) ≠ 64 ∧
      (facing State.reset (.busRead 0 32 0x28)).pending = [.busRead 0 32 0x28]) ∧
    (0x04 % 8 ≠ 0 ∧
      (facing State.reset (.busWrite 0 64 0x04 9)).pending = [.busWrite 0 64 0x04 9]) := by decide
theorem witness_PmodIsConstant :
    (facing State.reset (.busRead 0 64 0x48)).pending = [.busRead 0 64 0x48] ∧
    (facing State.reset (.busWrite 0 64 0x48 7)).pending = [.busWrite 0 64 0x48 7] := by decide
theorem witness_AccessBeyondWindowRefused : (256 : Nat) ≤ 0x100 ∧
    (facing State.reset (.busRead 0 64 0x100)).pending = [.busRead 0 64 0x100] ∧
    (facing State.reset (.busWrite 0 64 0x100 7)).pending = [.busWrite 0 64 0x100 7] := by decide
theorem witness_ResetClearsRegisters :
    (facing (start 1 2 3 4 5) .reset).pending = [.reset] := by decide
/-- A state with operands and a command pending meets the invariant, and its step answers. -/
theorem witness_StepKeepsTheInvariant :
    Inv (facing (start 7 5 11 0 0) (.busWrite 0 64 0x40 1)) ∧
    ∃ t, step (facing (start 7 5 11 0 0) (.busWrite 0 64 0x40 1)) = .next t ∧ t.status = 1 :=
  ⟨⟨rfl, fun _ => rfl, fun _ h => by simp [facing, start, State.reset, Memory.byteAt] at h,
    .inl rfl, fun _ => rfl⟩, _, rfl, by decide⟩
/-- An accepted access at the last location, and one of the wrong width. -/
theorem witness_StepStopsOnlyAtUnacceptedAccess :
    (facing State.reset (.busRead 0 64 0xF8)).pending = [.busRead 0 64 0xF8] ∧
    (facing State.reset (.busRead 0 32 0xF8)).pending = [.busRead 0 32 0xF8] ∧
    safeStep (facing State.reset (.busRead 0 64 0xF8)) = true ∧
    safeStep (facing State.reset (.busRead 0 32 0xF8)) = false := by decide
theorem witness_CommandEndsOneOfTwoWays :
    (facing (start 7 5 11 0 0) (.busWrite 1 64 0x40 1)).pending = [.busWrite 1 64 0x40 1] := by
  decide
theorem witness_CommandsChangeOnlyResultRegisters :
    (∃ t, exec .modmul (start 7 5 11 0 0) = .next t) ∧
    (∃ t, exec .tabhash (start 7 1 1 0 0) = .next t ∧ t.status ≠ 0x01) :=
  ⟨⟨_, rfl⟩, _, rfl, by decide⟩
/-- A command, a reset, and an event that is neither. -/
theorem witness_StatusRegisterFields :
    (∃ t, step (facing State.reset (.busWrite 0 64 0x40 0)) = .next t ∧
      t.status.getLsbD 1 = true) ∧
    (∃ t, step (facing State.reset (.busWrite 0 64 0x40 3)) = .next t ∧
      t.status.getLsbD 1 = false) ∧
    (∃ t, step (facing State.reset .reset) = .next t) ∧
    (∃ t, step (facing State.reset (.busWrite 0 64 0x30 0xFF)) = .next t) :=
  ⟨⟨_, rfl, by decide⟩, ⟨_, rfl, by decide⟩, ⟨_, rfl⟩, _, rfl⟩
/-- Two states that agree on what the command reads and differ in what earlier commands left. -/
theorem witness_CommandsArePureFunctions :
    let s := start 7 5 11 0 0
    let s' : State := { s with res := 9, status := 0x22, errinfo := 15 }
    s ≠ s' ∧ s.arg0 = s'.arg0 ∧ s.arg1 = s'.arg1 ∧ s.arg2 = s'.arg2 ∧ s.arg3 = s'.arg3 ∧
      s.arg4 = s'.arg4 ∧ s.tm = s'.tm ∧ s.draws = s'.draws := by decide
theorem witness_ErrorsAreNotSticky :
    ∃ t, step (facing State.reset (.busWrite 0 64 0x40 0x005)) = .next t ∧
      t.status.getLsbD 1 = true := ⟨_, rfl, by decide⟩
/-- Registers a command does not list differ, in each of the three clauses. -/
theorem witness_UnlistedRegistersHaveNoEffect :
    (let s := start 1 2 3 4 5
     let s' := start 1 2 3 6 7
     s ≠ s' ∧ s.arg0 = s'.arg0 ∧ s.arg1 = s'.arg1 ∧ s.arg2 = s'.arg2) ∧
    (let s := start 1 0 3 4 5
     let s' := start 1 0 6 7 8
     s ≠ s' ∧ s.arg0 = s'.arg0 ∧ s.arg1 = 0 ∧ s'.arg1 = 0) ∧
    (let s := start 1 2 3 4 5
     let s' := start 1 9 3 4 5
     s ≠ s' ∧ s.arg0 = s'.arg0 ∧ s.arg2 = s'.arg2 ∧ s.arg3 = s'.arg3 ∧ s.arg4 = s'.arg4) ∧
    (let s := start 1 2 3 4 5
     let s' : State := { s with tm := fixtureB, res := 7 }
     s ≠ s' ∧ s.arg0 = s'.arg0 ∧ s.arg1 = s'.arg1 ∧ s.arg2 = s'.arg2 ∧ s.arg3 = s'.arg3 ∧
       s.arg4 = s'.arg4) := by decide
/-- VQ13 (PROBE) and VT26 (TABHASH): the upper halves differ. -/
theorem witness_UpperHalvesAreIgnored :
    (let s := start 0 0 2 5 16
     let s' := start 0x0000000700000000 0 0x0000000100000002 0xFFFFFFFF00000005 0x0000000100000010
     s ≠ s' ∧ s.arg1 = s'.arg1 ∧ low32 s.arg0 = low32 s'.arg0 ∧ low32 s.arg2 = low32 s'.arg2 ∧
       low32 s.arg3 = low32 s'.arg3 ∧ low32 s.arg4 = low32 s'.arg4) ∧
    (let s := start 0x0102 0x2000 2 4 8
     let s' := start 0x0102 0x2000 0x0000000500000002 0xFFFFFFFF00000004 0x0000000100000008
     s ≠ s' ∧ s.arg1 = s'.arg1 ∧ low32 s.arg2 = low32 s'.arg2 ∧ low32 s.arg3 = low32 s'.arg3 ∧
       low32 s.arg4 = low32 s'.arg4 ∧ s.arg0 = s'.arg0 ∧ s.tm = s'.tm ∧ s.draws = s'.draws) := by
  decide
theorem witness_HostStoreWritesOneElement :
    (facing { State.reset with tm := fixtureB } (.memWrite 0 0x2003 7)).pending =
      [.memWrite 0 0x2003 7] ∧ (0x2004 : Word) ≠ 0x2003 := by decide
/-- The least positive modulus, and the greatest that is not. -/
theorem witness_ModmulResult :
    0 < (start 5 9 1 0 0).arg2.toInt ∧ (start 3 4 0 0 0).arg2.toInt ≤ 0 := by decide
/-- The extremes of both factors and of the modulus (`a` = MIN, `x` = `p` = MAX). -/
theorem witness_ModMulIsExactResidue :
    let a : Int := -2 ^ 63
    let x : Int := 2 ^ 63 - 1
    let p : Int := 2 ^ 63 - 1
    1 ≤ p ∧ p < 2 ^ 63 ∧ -2 ^ 63 ≤ a ∧ a < 2 ^ 63 ∧ -2 ^ 63 ≤ x ∧ x < 2 ^ 63 := by decide
/-- Three passes for the factor 5, modulus 11 (VM5). -/
theorem witness_ShiftAddLoopMultiplies :
    let n := 3
    let p := 11
    let xn := 5
    let res := 0
    0 < p ∧ xn < 2 ^ n ∧ res < p := by decide
theorem witness_UnihashRange :
    let s := start 1 1 (-2) 0 0
    let s' := start 1 1 (-2) 3 4
    (∃ t, exec .unihash s = .next t) ∧ (∃ t', exec .unihash s' = .next t') ∧ s ≠ s' ∧
      s.arg0 = s'.arg0 ∧ s.arg1 = s'.arg1 ∧ s.arg2 = s'.arg2 ∧ 14 ≤ 14 :=
  ⟨⟨_, rfl⟩, ⟨_, rfl⟩, by decide⟩
/-- VT2. -/
theorem witness_TabhashNullHandleGivesKey :
    (start 0xFFFFFFFFFFFFFFFB 0 (-7) 0 99).arg1 = 0 := by decide
/-- VT15 and VT16. -/
theorem witness_TabhashWithoutLanesGivesZero :
    ((start 5 0x1000 0 256 8).arg1 ≠ 0 ∧ low32 (start 5 0x1000 0 256 8).arg2 ≤ 0) ∧
    low32 (start 5 0x1000 (-1) 256 8).arg2 ≤ 0 := by decide
/-- VT9, its elements 0x3333333333333333 and 0x6666666666666666. -/
theorem witness_TabhashXorsSelectedElements :
    let s : State := { start 0x0102 0x2000 2 4 8 with tm := fixtureB }
    s.arg1 ≠ 0 ∧ laneCount s = 2 ∧ ∀ i < laneCount s, laneLegal s i ∧
      s.tm.elementAt (addressOf s i) =
        some (if i = 0 then 0x3333333333333333 else 0x6666666666666666) := by decide
/-- VT19 (a negative shift amount in lane 1) and VT24 (70 in lane 7). -/
theorem witness_TabhashReportsBadShift :
    (let s := start 5 0x1000 2 256 (-8)
     s.arg1 ≠ 0 ∧ 1 < laneCount s ∧ (∀ j < 1, laneLegal s j) ∧ ¬ shiftLegal s 1) ∧
    (let s := start 0x8000000000000000 0x1000 8 256 10
     s.arg1 ≠ 0 ∧ 7 < laneCount s ∧ (∀ j < 7, laneLegal s j) ∧ ¬ shiftLegal s 7) := by decide
/-- VT12 (the index is the bound) and VT18 (`bucketSize` 0). -/
theorem witness_TabhashReportsBadIndex :
    (let s := start 0x400 0x2000 2 4 8
     s.arg1 ≠ 0 ∧ 1 < laneCount s ∧ (∀ j < 1, laneLegal s j) ∧ shiftLegal s 1 ∧
       ¬ indexLegal s 1) ∧
    (let s := start 0 0x1000 3 0 8
     s.arg1 ≠ 0 ∧ 0 < laneCount s ∧ (∀ j < 0, laneLegal s j) ∧ shiftLegal s 0 ∧
       ¬ indexLegal s 0) := by decide
theorem witness_TabhashCompletesOnLegalLanes :
    let s := start 0x0102 0x2000 2 4 8
    s.arg1 ≠ 0 ∧ ∀ i < laneCount s, laneLegal s i := by decide
theorem witness_UnspecifiedElementIsFree :
    let s := start 0x0102 0x2000 1 4 8
    s.arg1 ≠ 0 ∧ laneCount s = 1 ∧ laneLegal s 0 ∧
      s.tm.elementAt (addressOf s 0) = none := by decide
/-- Eight lanes of 256 elements and a shift of 9: the last shift amount is 63. -/
theorem witness_TabhashUsefulShapeSucceeds :
    let s := start (-1) 0x1000 8 256 9
    s.arg1 ≠ 0 ∧ 1 ≤ low32 s.arg2 ∧ 256 ≤ low32 s.arg3 ∧ 0 ≤ low32 s.arg4 ∧
      (low32 s.arg2 - 1) * low32 s.arg4 ≤ 63 := by decide
/-- Two memories that differ only in an element no lane selects, with other counters. -/
theorem witness_TabhashDependsOnSelectedElements :
    let s : State := { start 0x0102 0x2000 2 4 8 with tm := fixtureB }
    let s' : State := { s with tm := fixtureB.store 0x2000 9, draws := 5 }
    s.tm ≠ s'.tm ∧ s.arg0 = s'.arg0 ∧ s.arg1 = s'.arg1 ∧ s.arg2 = s'.arg2 ∧ s.arg3 = s'.arg3 ∧
    s.arg4 = s'.arg4 ∧
    (∀ i < laneCount s, laneLegal s i →
      s.tm.elementAt (addressOf s i) = s'.tm.elementAt (addressOf s i)) ∧
    ∀ i < laneCount s, laneLegal s i → (s.tm.elementAt (addressOf s i)).isSome := by decide
/-- VE5 (0), VE8 (-2^31) and VE1 (15). -/
theorem witness_ProbeRejectsBadCapacity :
    low32 (start 0 0 1 0 0).arg4 ≤ 0 ∧ low32 (start 0 0 1 0 0x80000000).arg4 ≤ 0 ∧
    (start 0 0 1 5 15).arg4.setWidth 32 &&& ((start 0 0 1 5 15).arg4.setWidth 32 - 1) ≠ 0 := by
  decide
/-- The least and the greatest legal capacity. -/
theorem witness_LegalCapacitiesArePowersOfTwo :
    capacityIs (start 0 0 1 0 1) 0 ∧ capacityIs (start 0 0 1 0 0x40000000) 30 := by decide
/-- VE2 (attempt 0), and attempt 1. -/
theorem witness_ProbeRejectsBadAttempt :
    (capacityIs (start 0 0 0 5 16) 4 ∧ low32 (start 0 0 0 5 16).arg2 < 1) ∧
    (capacityIs (start 0 0 1 5 16) 4 ∧ 1 ≤ low32 (start 0 0 1 5 16).arg2) := by decide
/-- VE12 (tag -1), VE13 (tag 2), and the tags 0 and 1. -/
theorem witness_ProbeRejectsUnknownTag :
    capacityIs (start (-1) 0 1 5 16) 4 ∧ 1 ≤ low32 (start (-1) 0 1 5 16).arg2 ∧
    (low32 (start (-1) 0 1 5 16).arg0 ≠ 0 ∧ low32 (start (-1) 0 1 5 16).arg0 ≠ 1) ∧
    (low32 (start 2 0 1 5 16).arg0 ≠ 0 ∧ low32 (start 2 0 1 5 16).arg0 ≠ 1) ∧
    low32 (start 0 0 1 5 16).arg0 = 0 ∧ low32 (start 1 0 1 5 16).arg0 = 1 := by decide
theorem witness_ProbeQuadraticIndex :
    let s := start 0 0 1 (-3) 16
    capacityIs s 4 ∧ 1 ≤ low32 s.arg2 ∧ low32 s.arg0 = 0 := by decide
/-- VD10. -/
theorem witness_ProbeDoubleHashIndex :
    let s := start 1 0x8000000000000000 2147483647 5 1073741824
    capacityIs s 30 ∧ 1 ≤ low32 s.arg2 ∧ low32 s.arg0 = 1 := by decide
/-- VE4, VQ11 and VD6. -/
theorem witness_ProbeSecondaryHashPresence :
    (let s := start 1 0 1 5 16
     capacityIs s 4 ∧ 1 ≤ low32 s.arg2 ∧ low32 s.arg0 = 1 ∧ s.arg1 = 0) ∧
    (let s := start 0 777 3 5 16
     capacityIs s 4 ∧ 1 ≤ low32 s.arg2 ∧ low32 s.arg0 = 0) := by decide
theorem witness_ProbeIndexBelowCapacity :
    ∃ t, exec (.probe true) (start 1 6 2 (-100) 64) = .next t ∧ t.status = 0x01 :=
  ⟨_, rfl, by decide⟩
/-- S2: 12344 is even and not negative. -/
theorem witness_OddifiedHashesProbeAlike :
    0 ≤ (start 1 12344 1 7 32).arg1.toInt ∧ (start 1 12344 1 7 32).arg1.toInt % 2 = 0 := by decide
theorem witness_DoubleHashingCoversEverySlot :
    let s := start 1 12345 0 7 32
    capacityIs s 5 ∧ low32 s.arg0 = 1 := by decide
theorem witness_QuadraticProbingCoversEverySlot :
    let s := start 0 0 0 5 16
    capacityIs s 4 ∧ low32 s.arg0 = 0 := by decide

end Sys2Proof.Tests
end

section
/-!
SUPPORT. The register window, `STATUS` and reset (10_state.md R25, R28, R30, R33): one rule for each
event a step can meet, the window's map in the words of `Claims`, and the fields of the status words.
-/
namespace Sys2Proof.Machine
open Sys2Proof.Claims

/-! ### One rule per event -/

section Step
variable {s : State} {host width off : Nat} {v : Word} {rest : List Event}

/-- A read the window accepts. -/
theorem step_busRead (h : s.pending = .busRead host width off :: rest)
    (hacc : accepted width off = true) :
    step s = .next (busRead host off { s with pending := rest }) :=
  (step_pending h).trans (if_pos hacc)

/-- A read the window does not accept (20_memory.md R45). -/
theorem step_busRead_refused (h : s.pending = .busRead host width off :: rest)
    (hacc : ¬ accepted width off = true) :
    step s = .refused (.accessNotAccepted width off) :=
  (step_pending h).trans (if_neg hacc)

/-- A write the window accepts, at a location other than `CMD`. -/
theorem step_busWrite (h : s.pending = .busWrite host width off v :: rest)
    (hacc : accepted width off = true) (hoff : off ≠ cmdOffset) :
    step s = .next (windowWrite { s with pending := rest } off v) :=
  (step_pending h).trans ((if_pos hacc).trans (if_neg hoff))

/-- A write the window does not accept (20_memory.md R45). -/
theorem step_busWrite_refused (h : s.pending = .busWrite host width off v :: rest)
    (hacc : ¬ accepted width off = true) :
    step s = .refused (.accessNotAccepted width off) :=
  (step_pending h).trans (if_neg hacc)

/-- The platform's reset. -/
theorem step_reset (h : s.pending = .reset :: rest) :
    step s = .next (resetBlock { s with pending := rest }) :=
  step_pending h

end Step

/-- A legal command word runs its command. -/
theorem executeWord_command {w : Word} {i : Instr} (h : decode w = .command i) (s : State) :
    executeWord w s = exec i s := by
  simp [executeWord, h]

/-- A raised error in the words of `Claims`. -/
theorem endCommand_error_eq_raises (r : Raised) (s : State) :
    endCommand (.error r) s = raises s (errorCode r.error).toNat r.info := by
  rw [raises, ← statusError_eq]
  rfl

/-- An illegal command word ends with E_CMD, whose code is 8 and whose datum is the word. -/
theorem executeWord_illegal {w : Word} {why : Illegal} (h : decode w = .illegal why) (s : State) :
    executeWord w s = .next (raises s 8 w) := by
  simp only [executeWord, h]
  exact congrArg _ (endCommand_error_eq_raises ⟨.cmd, w⟩ s)

/-! ### The map of the window -/

theorem windowRead_eq_locationValue (s : State) (off : Nat) :
    windowRead s off = locationValue s off := by
  unfold windowRead
  split
  case h_10 => simp_all [locationValue]
  all_goals rfl

theorem windowWrite_eq_locationWritten (s : State) (off : Nat) (v : Word) :
    windowWrite s off v = locationWritten s off v := by
  unfold windowWrite
  split
  case h_6 => simp_all [locationWritten]
  all_goals rfl

/-- `PMOD` reads as the constant `P` in every state (10_state.md R28). -/
theorem windowRead_pmod (s : State) : windowRead s 0x48 = 0x000000010000000F := rfl

/-- `PMOD` is read-only (10_state.md R28). -/
theorem windowWrite_pmod (s : State) (v : Word) : windowWrite s 0x48 v = s := rfl

/-! ### The fields of `STATUS` -/

/-- Every error has a code from 1 to 8 (60_exceptions.md R141). -/
theorem errorCode_range (e : ErrorName) :
    1 ≤ (errorCode e).toNat ∧ (errorCode e).toNat ≤ 8 := by
  cases e <;> decide

/-- The fields of an error's `STATUS`: `ERR` alone of the two flags, the error's code, and nothing
in the reserved bits. -/
theorem statusError_fields (e : ErrorName) :
    (statusError e).getLsbD 0 = false ∧ (statusError e).getLsbD 1 = true ∧
    (statusError e).extractLsb' 2 2 = 0 ∧ (statusError e).extractLsb' 4 4 = errorCode e ∧
    statusError e >>> 8 = 0 := by
  cases e <;> decide

/-- `STATUS` after a command, whichever way it ended (10_state.md R25). -/
theorem endCommand_status_fields (o : Except Raised Word) (s : State) :
    let t := endCommand o s
    (t.status.getLsbD 0 = true ↔ t.status.getLsbD 1 = false) ∧
    t.status.extractLsb' 2 2 = 0 ∧ t.status >>> 8 = 0 ∧
    (t.status.getLsbD 1 = false → t.status.extractLsb' 4 4 = 0) ∧
    (t.status.getLsbD 1 = true → 1 ≤ (t.status.extractLsb' 4 4).toNat ∧
      (t.status.extractLsb' 4 4).toNat ≤ 8 ∧ t.res = s.res) := by
  cases o with
  | ok v => simp
  | error r =>
    obtain ⟨hrv, herr, hlow, hcode, hhigh⟩ := statusError_fields r.error
    obtain ⟨hone, height⟩ := errorCode_range r.error
    simp only [endCommand_error_status, endCommand_error_res, hrv, herr, hlow, hcode, hhigh]
    simp [hone, height]

/-- Only a command and reset write `STATUS`, `RES` and `ERRINFO`. -/
theorem step_keeps_resultRegisters {s t : State} {e : Event} {rest : List Event}
    (hp : s.pending = e :: rest) (hstep : step s = .next t)
    (hcmd : ∀ host w, e ≠ .busWrite host 64 cmdOffset w) (hreset : e ≠ .reset) :
    t.status = s.status ∧ t.res = s.res ∧ t.errinfo = s.errinfo := by
  obtain ⟨-, rfl⟩ | ⟨_, _, _, -, rfl⟩ | ⟨host, w, _, hp', -⟩ | ⟨_, _, _, _, -, -, rfl⟩ |
    ⟨_, _, _, _, -, rfl⟩ | ⟨_, hp', -⟩ := step_cases hstep
  case inr.inr.inl => exact absurd (List.cons.inj (hp.symm.trans hp')).1 (hcmd host w)
  case inr.inr.inr.inr.inr => exact absurd (List.cons.inj (hp.symm.trans hp')).1 hreset
  all_goals simp

/-! ### Reset -/

/-- The state after reset is one that the block's reset leaves as it is. -/
theorem resetBlock_reset : resetBlock State.reset = State.reset := rfl

/-! ### The obligations -/

/-- Settles O7: an access is accepted or refused by width and offset, and an accepted one follows
the map. -/
theorem registerWindowMap : Obligations.RegisterWindowMap := by
  intro s host off rest
  refine ⟨fun h8 hoff => ?_, fun width hbad => ?_⟩
  · have hacc : accepted 64 off = true := (accepted_iff 64 off).2 ⟨rfl, h8, by omega⟩
    refine ⟨fun hp => ?_, fun v hp => ⟨fun hne => ?_, ?_⟩⟩
    · rw [step_busRead hp hacc, busRead, windowRead_eq_locationValue]
      rfl
    · rw [step_busWrite hp hacc hne, windowWrite_eq_locationWritten]
    · rintro rfl
      exact ⟨fun i hi => (step_command hp).trans (executeWord_command hi _),
        fun why hw => (step_command hp).trans (executeWord_illegal hw _)⟩
  · have hacc : ¬ accepted width off = true := by
      rw [accepted_iff]
      omega
    exact ⟨fun hp => step_busRead_refused hp hacc, fun v hp => step_busWrite_refused hp hacc⟩

/-- Settles O8: the location of `PMOD` is accepted, its read is constant and its write does
nothing. -/
theorem pmodIsConstant : Obligations.PmodIsConstant := by
  intro s host rest
  have hacc : accepted 64 0x48 = true := by decide
  refine ⟨fun hp => ⟨_, step_busRead hp hacc, ?_⟩, fun v hp => ?_⟩
  · rw [busRead_returned, windowRead_pmod]
    rfl
  · rw [step_busWrite hp hacc (by decide), windowWrite_pmod]

/-- Settles O10: the reset state is itself a state after the block's reset, which clears the eight
registers and nothing else. -/
theorem resetClearsRegisters : Obligations.ResetClearsRegisters := by
  refine ⟨?_, fun s rest hp => ⟨_, step_reset hp, ?_⟩⟩
  · rw [← resetBlock_reset]
    simp [windowRead_pmod]
  · simp [windowRead_pmod]

/-- Settles O16, by the event the step meets: a command ends some outcome, reset clears the
registers, and no other event writes them. -/
theorem statusRegisterFields : Obligations.StatusRegisterFields := by
  intro s t e rest hp hstep
  refine ⟨?_, ?_, step_keeps_resultRegisters hp hstep⟩
  · rintro host w rfl
    obtain ⟨o, draws, hexec, -⟩ := executeWord_next w { s with pending := rest }
    rw [step_command hp, hexec, Host.Outcome.next.injEq] at hstep
    subst hstep
    exact endCommand_status_fields o _
  · rintro rfl
    rw [step_reset hp, Host.Outcome.next.injEq] at hstep
    subst hstep
    exact resetBlock_status _

end Sys2Proof.Machine
end

section
/-!
SUPPORT. The decoder and the opcode map (30_encoding.md R61, R62, R67): a word is fixed by its three
fields, each command has one word, and a word that selects no row is one the decoder rejects.
-/
namespace Sys2Proof.Machine
open Sys2Proof.Claims

/-! ### The fields of a command word -/

/-- The decoder's `ZERO` field in the words of R67. -/
theorem zeroField_eq_zero_iff (w : Word) : zeroField w = 0 ↔ w >>> 9 = 0 := by
  have hlt := w.isLt
  have hfield : (zeroField w).toNat = w.toNat / 512 % 2 ^ 55 := by
    simp [zeroField, Nat.shiftRight_eq_div_pow]
  have hshift : (w >>> 9).toNat = w.toNat / 512 := by simp [Nat.shiftRight_eq_div_pow]
  rw [← BitVec.toNat_inj, ← BitVec.toNat_inj, hfield, hshift]
  change _ = 0 ↔ _ = 0
  omega

/-- A word whose bits [63:9] are clear is the number its other two fields give (R61). -/
theorem toNat_eq_of_zeroField {w : Word} (h : zeroField w = 0) :
    w.toNat = (opcField w).toNat + 256 * (spField w).toNat := by
  have hopc : (opcField w).toNat = w.toNat % 256 := by simp [opcField]
  have hsp : (spField w).toNat = w.toNat / 256 % 2 := by
    rw [spField, BitVec.getLsbD, Nat.toNat_testBit]
  have hzero : w.toNat / 512 = 0 := by
    have := congrArg BitVec.toNat ((zeroField_eq_zero_iff w).1 h)
    simpa [Nat.shiftRight_eq_div_pow] using this
  omega

/-! ### The decoder -/

theorem withoutSp_eq_command_iff {w : Word} {i j : Instr} :
    withoutSp w i = .command j ↔ spField w = false ∧ i = j := by
  cases h : spField w <;> simp [withoutSp, h]

theorem decode_encode (i : Instr) : decode (encode i) = .command i := by
  cases i with
  | probe sp => cases sp <;> decide
  | _ => decide

/-- A word that decodes has clear bits [63:9], and its other two fields are those of the command's
own word. -/
theorem decode_command_fields {w : Word} {i : Instr} (h : decode w = .command i) :
    zeroField w = 0 ∧ (opcField w).toNat = (opcField (encode i)).toNat ∧
      spField w = spField (encode i) := by
  unfold decode at h
  split at h
  · cases h
  · next hzero =>
    refine ⟨not_not.1 hzero, ?_⟩
    split at h
    case h_4 hopc =>
      obtain rfl := Decoded.command.inj h
      refine ⟨hopc.trans ?_, ?_⟩ <;> cases spField w <;> rfl
    case h_5 => cases h
    all_goals
      next hopc =>
      obtain ⟨hsp, rfl⟩ := withoutSp_eq_command_iff.1 h
      exact ⟨hopc, hsp⟩

/-- Each command has exactly one word, so no bit of a word is dropped (R61, R62). -/
theorem decode_eq_command_iff {w : Word} {i : Instr} : decode w = .command i ↔ w = encode i := by
  refine ⟨fun h => ?_, fun h => h ▸ decode_encode i⟩
  obtain ⟨hzero, hopc, hsp⟩ := decode_command_fields h
  obtain ⟨hzero', -, -⟩ := decode_command_fields (decode_encode i)
  apply BitVec.eq_of_toNat_eq
  rw [toNat_eq_of_zeroField hzero, toNat_eq_of_zeroField hzero', hopc, hsp]

/-- The words the decoder rejects, case by case (R67). -/
theorem decode_illegal_iff (w : Word) :
    (∃ why, decode w = .illegal why) ↔
      ((opcField w).toNat = 0x00 ∨ 0x05 ≤ (opcField w).toNat) ∨
      (spField w = true ∧ (opcField w).toNat ≠ 0x04) ∨ zeroField w ≠ 0 := by
  unfold decode
  split
  · next hzero => exact iff_of_true ⟨_, rfl⟩ (.inr (.inr hzero))
  · next hzero =>
    simp only [hzero, or_false]
    split
    case h_4 hopc => simp [hopc]
    case h_5 =>
      have hopc : (opcField w).toNat = 0x00 ∨ 0x05 ≤ (opcField w).toNat := by grind
      exact iff_of_true ⟨_, rfl⟩ (.inl hopc)
    all_goals
      next hopc =>
      cases hsp : spField w <;> simp [withoutSp, hsp, hopc]

/-- What the decoder does not reject is a command (R70). -/
theorem decode_illegal_iff_not_command (w : Word) :
    (∃ why, decode w = .illegal why) ↔ ¬ ∃ i, decode w = .command i := by
  cases decode w <;> simp

/-! ### The rows of the opcode map -/

/-- The mask of a row that leaves no field free. -/
theorem and_fullMask (w : Word) : w &&& 0xFFFFFFFFFFFFFFFF = w :=
  BitVec.and_allOnes

/-- PROBE's row leaves bit 8 free: the words that match are the two the encoder writes. -/
theorem and_probeMask_iff (w : Word) :
    w &&& 0xFFFFFFFFFFFFFEFF = 0x0000000000000004 ↔ ∃ sp, w = encode (.probe sp) := by
  constructor
  · intro h
    refine ⟨spField w, ?_⟩
    calc w = w &&& (0xFFFFFFFFFFFFFEFF ||| BitVec.twoPow 64 8) := (and_fullMask w).symm
      _ = 0x0000000000000004 ||| (w &&& BitVec.twoPow 64 8) := by
        rw [BitVec.and_or_distrib_left, h]
      _ = encode (.probe (spField w)) := by
        rw [BitVec.and_twoPow, ← spField]
        cases spField w <;> rfl
  · rintro ⟨sp, rfl⟩
    cases sp <;> decide

/-- A word selects a row of the opcode map exactly when it decodes. -/
theorem exists_row_iff_command (w : Word) :
    (∃ row ∈ opcodeMap, w &&& row.mask = row.pattern) ↔ ∃ i, decode w = .command i := by
  simp only [decode_eq_command_iff, opcodeMap, List.exists_mem_cons_iff, and_fullMask,
    and_probeMask_iff]
  constructor
  · rintro (h | h | h | ⟨sp, h⟩ | h)
    · exact ⟨.modmul, h⟩
    · exact ⟨.tabhash, h⟩
    · exact ⟨.unihash, h⟩
    · exact ⟨.probe sp, h⟩
    · simp at h
  · rintro ⟨_ | _ | _ | sp, h⟩
    · exact .inl h
    · exact .inr (.inl h)
    · exact .inr (.inr (.inl h))
    · exact .inr (.inr (.inr (.inl ⟨sp, h⟩)))

/-- The five legal words (R62). -/
theorem exists_encode_iff (w : Word) :
    (∃ i, w = encode i) ↔ w = 0x001 ∨ w = 0x002 ∨ w = 0x003 ∨ w = 0x004 ∨ w = 0x104 := by
  constructor
  · rintro ⟨_ | _ | _ | _ | _, rfl⟩ <;> decide
  · rintro (rfl | rfl | rfl | rfl | rfl)
    exacts [⟨.modmul, rfl⟩, ⟨.tabhash, rfl⟩, ⟨.unihash, rfl⟩, ⟨.probe false, rfl⟩,
      ⟨.probe true, rfl⟩]

/-! ### The obligations -/

/-- Settles O2: a command's word is the only one that decodes to it, and PROBE's two words are those
that match its row. -/
theorem decodeFollowsOpcodeMap : Obligations.DecodeFollowsOpcodeMap := by
  intro w
  rw [and_fullMask, and_probeMask_iff, ← exists_encode_iff]
  refine ⟨decode_eq_command_iff, decode_eq_command_iff, decode_eq_command_iff,
    exists_congr fun _ => decode_eq_command_iff, fun sp h => ?_,
    exists_congr fun _ => decode_eq_command_iff⟩
  obtain rfl := decode_eq_command_iff.1 h
  cases sp <;> rfl

/-- Settles O4: a word that selects no row is one the decoder rejects, whose fields R67 lists and
which ends with E_CMD. -/
theorem illegalWordRaisesCmdError : Obligations.IllegalWordRaisesCmdError := by
  intro w
  have hrows : (∀ row ∈ opcodeMap, w &&& row.mask ≠ row.pattern) ↔
      ∃ why, decode w = .illegal why := by
    rw [decode_illegal_iff_not_command, ← exists_row_iff_command]
    push Not
    rfl
  rw [hrows]
  refine ⟨?_, ?_⟩
  · rw [decode_illegal_iff, ne_eq (zeroField w), zeroField_eq_zero_iff]
    rfl
  · rintro ⟨why, hw⟩ s host rest hp
    exact (step_command hp).trans (executeWord_illegal hw _)

end Sys2Proof.Machine
end

section
/-!
SUPPORT. MODMUL and its function `modMul` (40_modmul.md R80 to R87): the loop's invariant, the value
of `modMul` for every legal and every illegal modulus, and how the command ends.
-/
namespace Sys2Proof.Machine
open Sys2Proof.Claims

/-! ### The loop -/

/-- The loop stops when nothing is left of the shifting factor. -/
theorem shiftAdd_zero_factor (fuel p an res : Nat) : shiftAdd fuel p an 0 res = res := by
  cases fuel <;> simp [shiftAdd]

/-- One pass of the loop keeps `res + an * xn` modulo `p` (R84). -/
theorem shiftAdd_pass_modEq (p an xn res : Nat) :
    (if xn % 2 = 1 then (res + an) % p else res) + (an + an) % p * (xn / 2) ≡
      res + an * xn [MOD p] := by
  have hdouble : (an + an) % p * (xn / 2) ≡ (an + an) * (xn / 2) [MOD p] :=
    (Nat.mod_modEq _ _).mul_right _
  have hsplit : an * xn = an * (xn % 2) + (an + an) * (xn / 2) := by
    calc an * xn = an * (xn % 2 + 2 * (xn / 2)) := by rw [Nat.mod_add_div]
      _ = an * (xn % 2) + (an + an) * (xn / 2) := by ring
  rw [hsplit, ← Nat.add_assoc]
  refine Nat.ModEq.add ?_ hdouble
  split
  · next hodd => simpa [hodd] using Nat.mod_modEq (res + an) p
  · next heven => simp [Nat.mod_two_ne_one.1 heven, Nat.ModEq.refl]

/-- `n` passes are enough for a factor of `n` bits (R84, R87). -/
theorem shiftAdd_eq {n p an xn res : Nat} (hx : xn < 2 ^ n) (hres : res < p) :
    shiftAdd n p an xn res = (res + an * xn) % p := by
  induction n generalizing an xn res with
  | zero =>
    obtain rfl : xn = 0 := by omega
    rw [shiftAdd_zero_factor, Nat.mul_zero, Nat.add_zero, Nat.mod_eq_of_lt hres]
  | succ n ih =>
    by_cases hzero : xn = 0
    · rw [hzero, shiftAdd_zero_factor, Nat.mul_zero, Nat.add_zero, Nat.mod_eq_of_lt hres]
    · have hx' : xn / 2 < 2 ^ n := by omega
      have hres' : (if xn % 2 = 1 then (res + an) % p else res) < p := by
        split
        · exact Nat.mod_lt _ (by omega)
        · exact hres
      rw [shiftAdd, if_neg hzero, ih hx' hres']
      exact shiftAdd_pass_modEq p an xn res

/-! ### The function `modMul` -/

/-- A modulus that is not positive is an error, before the factors are looked at (R81). -/
theorem modMul_of_nonpos (a x : Int) {p : Int} (hp : p ≤ 0) :
    modMul a x p = .error ⟨.modulus, sext64 p⟩ :=
  if_pos hp

/-- The exact residue for every positive modulus of 63 bits, whatever the factors (R86). -/
theorem modMul_of_pos (a x : Int) {p : Int} (hp : 0 < p) (hp63 : p < 2 ^ 63) :
    modMul a x p = .ok (a * x % p) := by
  rw [modMul, if_neg (by omega)]
  have hreduce : a * x % p = emod a p * emod x p % p := Int.mul_emod a x p
  split
  · next hzero => obtain h | h := hzero <;> simp [hreduce, h]
  · obtain ⟨ha, -⟩ := emod_range a hp
    obtain ⟨hx, hxp⟩ := emod_range x hp
    rw [shiftAdd_eq (by omega) (by omega), hreduce]
    simp [ha, hx, hp.le]

/-- The normalisation POH writes with the truncating `%` is the residue (R82). -/
theorem tmod_tmod_add_self (x : Int) {p : Int} (hp : 0 < p) :
    Int.tmod (Int.tmod x p + p) p = x % p := by
  have hlow : 0 ≤ Int.tmod x p + p := by have := Int.lt_tmod_of_pos x hp; omega
  rw [Int.tmod_eq_emod_of_nonneg hlow, Int.add_emod_right, Int.tmod_def, Int.sub_mul_emod_self_left]

/-! ### The command -/

/-- MODMUL succeeds with the residue when the modulus is positive (R80). -/
theorem modmulOutcome_of_pos {s : State} (hp : 0 < s.arg2.toInt) :
    modmulOutcome s = .ok (BitVec.ofInt 64 (s.arg0.toInt * s.arg1.toInt % s.arg2.toInt)) := by
  rw [modmulOutcome, modMul_of_pos (p := s64 s.arg2) _ _ hp (s64_bounds s.arg2).2]
  exact congrArg _ (zext64_toNat (Int.emod_nonneg _ hp.ne'))

/-- MODMUL raises E_MODULUS with its third operand otherwise (R80). -/
theorem modmulOutcome_of_nonpos {s : State} (hp : s.arg2.toInt ≤ 0) :
    modmulOutcome s = .error ⟨.modulus, s.arg2⟩ := by
  rw [modmulOutcome, modMul_of_nonpos (p := s64 s.arg2) _ _ hp, sext64_s64]

/-! ### The obligations -/

/-- Settles O22, by the sign of the modulus. -/
theorem modmulResult : Obligations.ModmulResult := by
  refine ⟨decode_encode .modmul, fun s => ⟨fun hp => ?_, fun hp => ?_⟩⟩
  · rw [exec, execModmul, modmulOutcome_of_pos hp]
    rfl
  · rw [exec, execModmul, modmulOutcome_of_nonpos hp, endCommand_error_eq_raises]
    rfl

/-- Settles O23: the laws are the residue at the factors 1 and 0. -/
theorem modMulIsExactResidue : Obligations.ModMulIsExactResidue := by
  intro a x p _ _ _ _ hp hp63
  have hmul (b y : Int) : modMul b y p = .ok (b * y % p) := modMul_of_pos b y hp hp63
  obtain ⟨hnonneg, hlt⟩ := emod_range (a * x) hp
  refine ⟨hmul a x, hnonneg, hlt, ?_, ?_, ?_⟩
  · rw [hmul, Int.one_mul, tmod_tmod_add_self x hp]
  · rw [hmul, Int.zero_mul, Int.zero_emod]
  · rw [hmul, Int.mul_zero, Int.zero_emod]

end Sys2Proof.Machine
end

section
/-!
SUPPORT. TABHASH (41_tabhash.md R90 to R99): a lane of the model in the words of `Claims`, the fold
up to the lowest failing lane and over lanes that all pass, and how the command ends.
-/
namespace Sys2Proof.Machine
open Sys2Proof.Claims

/-! ### A lane, in integers -/

theorem laneShift_tabOperands (s : State) (i : Nat) : laneShift (tabOperands s) i = shiftOf s i :=
  rfl

theorem laneIndex_tabOperands (s : State) (i : Nat) :
    laneIndex (tabOperands s) i = indexOf s i := by
  rw [laneIndex, laneByte_eq]
  rfl

theorem laneAddress_tabOperands (s : State) (i : Nat) :
    laneAddress (tabOperands s) i = addressOf s i := by
  rw [laneAddress, laneIndex_tabOperands]
  rfl

/-- A lane is reported for its shift, or else for its index, or not at all (R94, R95, R97). -/
theorem laneError_tabOperands (s : State) (i : Nat) : laneError (tabOperands s) i =
    if shiftLegal s i then
      if indexLegal s i then none else some ⟨.index, BitVec.ofInt 64 (indexOf s i)⟩
    else some ⟨.shift, BitVec.ofInt 64 (shiftOf s i)⟩ := by
  have hcases := laneError_cases (tabOperands s) i
  rw [laneShift_tabOperands, laneIndex_tabOperands] at hcases
  obtain ⟨hshift, he⟩ | ⟨hshift, hindex, he⟩ | ⟨hshift, hindex, he⟩ := hcases
  · rw [if_neg (by omega)]
    exact he
  · have hbad : ¬ indexLegal s i := fun ⟨h0, h1⟩ => hindex.elim h0.not_gt h1.not_ge
    rw [if_pos hshift, if_neg hbad]
    exact he
  · have hgood : indexLegal s i := hindex
    rw [if_pos hshift, if_pos hgood]
    exact he

theorem laneError_of_laneLegal {s : State} {i : Nat} (h : laneLegal s i) :
    laneError (tabOperands s) i = none := by
  obtain ⟨hshift, hindex⟩ := h
  rw [laneError_tabOperands, if_pos hshift, if_pos hindex]

/-- A shift amount outside [0, 63] is reported whatever the index would be (R94). -/
theorem laneError_of_not_shiftLegal {s : State} {i : Nat} (hshift : ¬ shiftLegal s i) :
    laneError (tabOperands s) i = some ⟨.shift, BitVec.ofInt 64 (shiftOf s i)⟩ := by
  rw [laneError_tabOperands, if_neg hshift]

/-- An index outside the table is reported when the shift amount is legal (R95). -/
theorem laneError_of_not_indexLegal {s : State} {i : Nat} (hshift : shiftLegal s i)
    (hindex : ¬ indexLegal s i) :
    laneError (tabOperands s) i = some ⟨.index, BitVec.ofInt 64 (indexOf s i)⟩ := by
  rw [laneError_tabOperands, if_pos hshift, if_neg hindex]

/-! ### The fold over the lanes -/

/-- The lowest failing lane's error ends the fold, whatever the lanes before it read (R97). -/
theorem foldLanes_lowest_error {tm : Memory} {o : TabOperands} {e : Raised} {n i k : Nat}
    {acc : Word} {draws : Nat} (hik : i ≤ k) (hkn : k < i + n)
    (hpass : ∀ j, i ≤ j → j < k → laneError o j = none) (hfail : laneError o k = some e) :
    foldLanes tm o n i acc draws = .error e := by
  induction n generalizing i acc draws with
  | zero => omega
  | succ n ih =>
    obtain rfl | hlt := hik.eq_or_lt
    · exact foldLanes_error hfail
    · rw [foldLanes_step (hpass i le_rfl hlt)]
      exact ih hlt (by omega) fun j hj => hpass j (by omega)

/-- Lanes that pass and whose elements have values are folded by XOR, and nothing is drawn
(R96). -/
theorem foldLanes_of_elements {tm : Memory} {o : TabOperands} {element : Nat → Word} {n i : Nat}
    {acc : Word} {draws : Nat}
    (h : ∀ j ∈ List.range' i n,
      laneError o j = none ∧ tm.elementAt (laneAddress o j) = some (element j)) :
    foldLanes tm o n i acc draws =
      .ok ((List.range' i n).foldl (fun acc j => acc ^^^ element j) acc, draws) := by
  induction n generalizing i acc with
  | zero => rfl
  | succ n ih =>
    rw [List.range'_succ, List.forall_mem_cons] at h
    obtain ⟨⟨hpass, helement⟩, hrest⟩ := h
    rw [foldLanes_step hpass, read_some helement, ih hrest, List.range'_succ, List.foldl_cons]

/-! ### The command -/

theorem tabhashOutcome_of_null {s : State} (h : s.arg1 = 0) :
    tabhashOutcome s = .ok (s.arg0, s.draws) :=
  if_pos h

theorem tabhashOutcome_of_handle {s : State} (h : s.arg1 ≠ 0) :
    tabhashOutcome s = foldLanes s.tm (tabOperands s) (laneCount s) 0 0 s.draws :=
  if_neg h

/-- A TABHASH that succeeds without a draw changes the result registers only. -/
theorem exec_tabhash_of_ok {s : State} {v : Word} (h : tabhashOutcome s = .ok (v, s.draws)) :
    exec .tabhash s = .next (returns s v) := by
  rw [exec, execTabhash, h]
  rfl

theorem exec_tabhash_of_error {s : State} {e : Raised} (h : tabhashOutcome s = .error e) :
    exec .tabhash s = .next (raises s (errorCode e.error).toNat e.info) := by
  rw [exec, execTabhash, h, ← endCommand_error_eq_raises]

/-- TABHASH ends with the error of the lowest failing lane (R97). -/
theorem exec_tabhash_lowest_error {s : State} {i : Nat} {e : Raised} (hhandle : s.arg1 ≠ 0)
    (hi : i < laneCount s) (hpass : ∀ j < i, laneLegal s j)
    (hfail : laneError (tabOperands s) i = some e) :
    exec .tabhash s = .next (raises s (errorCode e.error).toNat e.info) := by
  apply exec_tabhash_of_error
  rw [tabhashOutcome_of_handle hhandle]
  exact foldLanes_lowest_error i.zero_le (by omega)
    (fun j _ hj => laneError_of_laneLegal (hpass j hj)) hfail

/-! ### The obligations -/

/-- Settles O30: the fold over all lanes, each of which passes and reads its element. -/
theorem tabhashXorsSelectedElements : Obligations.TabhashXorsSelectedElements := by
  intro s element hhandle hlanes
  apply exec_tabhash_of_ok
  rw [tabhashOutcome_of_handle hhandle, List.range_eq_range']
  refine foldLanes_of_elements fun j hj => ?_
  obtain ⟨hlegal, helement⟩ := hlanes j (by simpa using hj)
  rw [laneAddress_tabOperands]
  exact ⟨laneError_of_laneLegal hlegal, helement⟩

/-- Settles O31: the lowest failing lane's error is E_SHIFT, code 7. -/
theorem tabhashReportsBadShift : Obligations.TabhashReportsBadShift := fun _ _ hhandle hi hpass
    hshift => exec_tabhash_lowest_error hhandle hi hpass (laneError_of_not_shiftLegal hshift)

/-- Settles O32: the lowest failing lane's error is E_INDEX, code 6. -/
theorem tabhashReportsBadIndex : Obligations.TabhashReportsBadIndex := fun _ _ hhandle hi hpass
    hshift hindex =>
  exec_tabhash_lowest_error hhandle hi hpass (laneError_of_not_indexLegal hshift hindex)

/-- Settles O28: the null handle's outcome is the key. -/
theorem tabhashNullHandleGivesKey : Obligations.TabhashNullHandleGivesKey :=
  fun _ hnull => exec_tabhash_of_ok (tabhashOutcome_of_null hnull)

/-- Settles O29: with no lanes the fold gives back the initial accumulator. -/
theorem tabhashWithoutLanesGivesZero : Obligations.TabhashWithoutLanesGivesZero := by
  intro s hhandle hcount
  have hlanes : laneCount s = 0 := Int.toNat_of_nonpos hcount
  apply exec_tabhash_of_ok
  rw [tabhashOutcome_of_handle hhandle, hlanes, foldLanes]

end Sys2Proof.Machine
end

section
/-!
SUPPORT. UNIHASH (42_unihash.md R105 to R111): the closed form, its range, and how the command ends.
-/
namespace Sys2Proof.Machine
open Sys2Proof.Claims

/-! ### The closed form and its patterns -/

/-- `emod(a × keyHash + b, P)` over the integers (R110). -/
def universalHash (keyHash a b : Word) : Int := (a.toInt * keyHash.toInt + b.toInt) % 4294967311

theorem universalHash_range (keyHash a b : Word) :
    0 ≤ universalHash keyHash a b ∧ universalHash keyHash a b < 4294967311 :=
  emod_range _ (by decide)

/-- With the factor `a = 0` the hash is `b` modulo `P` (R105, R108). -/
theorem universalHash_zero_factor (keyHash b : Word) :
    universalHash keyHash 0 b = b.toInt % 4294967311 := by
  simp [universalHash]

/-- A residue modulo `P` is not negative as a signed pattern, so MODMUL's result can be added to. -/
theorem toInt_ofInt_emod_P (n : Int) :
    (BitVec.ofInt 64 (n % 4294967311)).toInt = n % 4294967311 := by
  obtain ⟨hnonneg, hlt⟩ := emod_range n (p := 4294967311) (by decide)
  exact toInt_ofInt_small hnonneg (hlt.trans (by decide))

/-- A pattern below 2^33 has bits [63:33] clear. -/
theorem shiftRight_33_eq_zero {v : Word} (h : v.toNat < 2 ^ 33) : v >>> 33 = 0 := by
  apply BitVec.eq_of_toNat_eq
  rw [BitVec.toNat_ushiftRight, Nat.shiftRight_eq_div_pow, Nat.div_eq_of_lt h]
  rfl

/-! ### The command -/

/-- Reducing the product before `b` is added does not change the residue (R106, R110). -/
theorem unihashOutcome_eq (s : State) :
    unihashOutcome s = .ok (BitVec.ofInt 64 (universalHash s.arg0 s.arg1 s.arg2)) := by
  rw [unihashOutcome, modMul_of_pos _ _ (by decide) (by decide)]
  have hsum : emod (s64 s.arg1 * s64 s.arg0 % Config.modulusP + s64 s.arg2) Config.modulusP =
      universalHash s.arg0 s.arg1 s.arg2 := Int.emod_add_emod ..
  simp only [hsum, zext64_toNat (universalHash_range _ _ _).1]

theorem exec_unihash (s : State) : exec .unihash s =
    .next (returns s (BitVec.ofInt 64 (universalHash s.arg0 s.arg1 s.arg2))) := by
  rw [exec, execUnihash, unihashOutcome_eq]
  rfl

/-- What a UNIHASH leaves in `RES`. -/
theorem res_of_exec_unihash {s t : State} (h : exec .unihash s = .next t) :
    t.res = BitVec.ofInt 64 (universalHash s.arg0 s.arg1 s.arg2) := by
  rw [exec_unihash, Host.Outcome.next.injEq] at h
  subst h
  rfl

/-- `RES` after a UNIHASH, read as unsigned. -/
theorem res_toNat_of_exec_unihash {s t : State} (h : exec .unihash s = .next t) :
    (t.res.toNat : Int) = universalHash s.arg0 s.arg1 s.arg2 := by
  obtain ⟨hnonneg, hlt⟩ := universalHash_range s.arg0 s.arg1 s.arg2
  rw [res_of_exec_unihash h, toNat_ofInt_small hnonneg (hlt.trans (by decide))]

/-- Every value of [0, P) occurs: with `a = 0` the result is `b` (R108, R111). -/
theorem exists_unihash_result {n : Nat} (hn : n < 4294967311) :
    ∃ s t : State, exec .unihash s = .next t ∧ t.res.toNat = n := by
  have hb : (BitVec.ofInt 64 (n : Int)).toInt = n := toInt_ofInt_small (by omega) (by omega)
  have hhash : universalHash 0 0 (BitVec.ofInt 64 n) = n := by
    rw [universalHash_zero_factor, hb]
    omega
  have hexec := exec_unihash { State.reset with arg2 := BitVec.ofInt 64 n }
  exact ⟨_, _, hexec, Int.ofNat_inj.1 ((res_toNat_of_exec_unihash hexec).trans hhash)⟩

/-! ### The obligations -/

/-- Settles O25, by the closed form. -/
theorem unihashResult : Obligations.UnihashResult := ⟨decode_encode .unihash, exec_unihash⟩

/-- Settles O26: MODMUL by `P` leaves the product's residue, to which `b` may be added before or
after the reduction. -/
theorem unihashIsModmulPlusB : Obligations.UnihashIsModmulPlusB := by
  intro s
  have hP : (4294967311 : Word).toInt = 4294967311 := by decide
  have hmodmul := (modmulResult.2
    { s with arg0 := s.arg1, arg1 := s.arg0, arg2 := 4294967311 }).1 (hP ▸ by decide)
  refine ⟨_, _, exec_unihash s, hmodmul, rfl, rfl, ?_⟩
  simp only [returns, hP]
  rw [toInt_ofInt_emod_P, Int.emod_add_emod, universalHash]

/-- Settles O27: the range is the residue's, every value of it occurs, and the closed form has the
three operands only. -/
theorem unihashRange : Obligations.UnihashRange := by
  refine ⟨fun s t ht => ?_, fun j hj => exists_unihash_result (by omega),
    fun s s' t t' h0 h1 h2 ht ht' => ?_⟩
  · obtain ⟨-, hlt⟩ := universalHash_range s.arg0 s.arg1 s.arg2
    rw [← res_toNat_of_exec_unihash ht] at hlt
    exact ⟨by omega, shiftRight_33_eq_zero (by omega), by omega⟩
  · rw [res_of_exec_unihash ht, res_of_exec_unihash ht', h0, h1, h2]

end Sys2Proof.Machine
end

section
/-!
SUPPORT. PROBE (43_probe.md R115 to R126): the capacity test as a bit test, the offset of each tag,
and how the command ends once each check has been passed.
-/
namespace Sys2Proof.Machine
open Sys2Proof.Claims

/-! ### The operands -/

/-- The model's 32-bit operand in the words of `Claims` (10_state.md R23). -/
theorem s32_eq_low32 (v : Word) : s32 v = low32 v := rfl

/-! ### The capacity -/

/-- The model's test is the bit test of R117 on the 32-bit operand. -/
theorem capacityLegal_toInt_iff (c : BitVec 32) :
    capacityLegal c.toInt = true ↔ 0 < c.toInt ∧ c &&& (c - 1) = 0 := by
  simp only [capacityLegal, Bool.and_eq_true, decide_eq_true_eq, beq_iff_eq]
  refine and_congr_right fun hpos => ?_
  have hnat : c.toInt.toNat = c.toNat := by
    rw [BitVec.toInt_eq_toNat_bmod, Int.bmod] at hpos ⊢
    omega
  have hpred : (c - 1).toNat = c.toNat - 1 := by
    have := c.isLt
    rw [BitVec.toNat_sub]
    change (2 ^ 32 - 1 + c.toNat) % 2 ^ 32 = _
    omega
  rw [hnat, ← BitVec.toNat_inj, BitVec.toNat_and, hpred]
  rfl

theorem capacityLegal_two_pow (k : Nat) : capacityLegal (2 ^ k) = true := by
  have hnat : ((2 : Int) ^ k).toNat = 2 ^ k := by norm_cast
  simp [capacityLegal, hnat, Nat.and_two_pow_sub_one_eq_mod]

/-! ### The offset, by tag -/

theorem probeOffset_quadratic (sp : Bool) (h t : Int) :
    probeOffset sp 0 h t = .ok (triangular t) := rfl

theorem probeOffset_doubleHashing (h t : Int) :
    probeOffset true 1 h t = .ok (t * probeStep h) := rfl

theorem probeOffset_missingHash (h t : Int) : probeOffset false 1 h t = .error ⟨.nosec, 0⟩ := rfl

theorem probeOffset_unknownTag (sp : Bool) {ty : Int} (h t : Int) (h0 : ty ≠ 0) (h1 : ty ≠ 1) :
    probeOffset sp ty h t = .error ⟨.ptype, sext64 ty⟩ := by
  rw [probeOffset, if_neg h0, if_neg h1]

/-- The secondary hash 0 has the step 1 (R126). -/
theorem probeStep_zero : probeStep (0 : Word).toInt = 1 := rfl

/-! ### The command -/

/-- PROBE ends its outcome, and changes nothing else. -/
theorem exec_probe (sp : Bool) (s : State) :
    exec (.probe sp) s = .next (endCommand (probeOutcome sp s) s) := rfl

/-- PROBE's capacity check comes before every other (R116, R117). -/
theorem exec_probe_of_illegalCapacity {sp : Bool} {s : State}
    (hcap : capacityLegal (low32 s.arg4) = false) :
    exec (.probe sp) s = .next (raises s 2 (BitVec.ofInt 64 (low32 s.arg4))) := by
  have hout : probeOutcome sp s = .error ⟨.capacity, sext64 (low32 s.arg4)⟩ := if_pos hcap
  rw [exec_probe, hout, endCommand_error_eq_raises]
  rfl

section LegalCapacity
variable {sp : Bool} {s : State} {k : Nat}

theorem not_illegalCapacity (hcap : capacityIs s k) : ¬ capacityLegal (s32 s.arg4) = false := by
  obtain ⟨-, hpow⟩ := hcap
  rw [s32_eq_low32, hpow, capacityLegal_two_pow]
  decide

/-- The attempt is checked next, before the tag (R116, R118). -/
theorem exec_probe_of_attempt_lt_one (hcap : capacityIs s k) (hatt : low32 s.arg2 < 1) :
    exec (.probe sp) s = .next (raises s 3 (BitVec.ofInt 64 (low32 s.arg2))) := by
  have hout : probeOutcome sp s = .error ⟨.attempt, sext64 (low32 s.arg2)⟩ :=
    (if_neg (not_illegalCapacity hcap)).trans (if_pos hatt)
  rw [exec_probe, hout, endCommand_error_eq_raises]
  rfl

/-- With both checks passed, the tag's offset decides, and the mask is the exact residue (R115,
R122). -/
theorem probeOutcome_of_legal (hcap : capacityIs s k) (hatt : 1 ≤ low32 s.arg2) :
    probeOutcome sp s =
      (probeOffset sp (low32 s.arg0) s.arg1.toInt (low32 s.arg2)).map
        fun off => BitVec.ofInt 64 ((low32 s.arg3 + off) % low32 s.arg4) := by
  have hmask (n : Int) : maskIndex n (low32 s.arg4) = BitVec.ofInt 64 (n % low32 s.arg4) := by
    obtain ⟨hk, hpow⟩ := hcap
    rw [hpow, maskIndex_two_pow n hk]
  rw [probeOutcome, if_neg (not_illegalCapacity hcap)]
  simp only [s32_eq_low32, s64, hmask, if_neg hatt.not_gt]
  cases probeOffset sp (low32 s.arg0) s.arg1.toInt (low32 s.arg2) <;> rfl

theorem exec_probe_of_offset {off : Int} (hcap : capacityIs s k) (hatt : 1 ≤ low32 s.arg2)
    (hoff : probeOffset sp (low32 s.arg0) s.arg1.toInt (low32 s.arg2) = .ok off) :
    exec (.probe sp) s =
      .next (returns s (BitVec.ofInt 64 ((low32 s.arg3 + off) % low32 s.arg4))) := by
  rw [exec_probe, probeOutcome_of_legal hcap hatt, hoff]
  rfl

theorem exec_probe_of_offset_error {e : Raised} (hcap : capacityIs s k) (hatt : 1 ≤ low32 s.arg2)
    (hoff : probeOffset sp (low32 s.arg0) s.arg1.toInt (low32 s.arg2) = .error e) :
    exec (.probe sp) s = .next (raises s (errorCode e.error).toNat e.info) := by
  rw [exec_probe, probeOutcome_of_legal hcap hatt, hoff, ← endCommand_error_eq_raises]
  rfl

/-- Past the two checks there are three ways to end: a result, no secondary hash for double hashing,
or a tag that is neither 0 nor 1 (R115). -/
theorem exec_probe_legal_cases (sp : Bool) (hcap : capacityIs s k) (hatt : 1 ≤ low32 s.arg2) :
    (∃ v, exec (.probe sp) s = .next (returns s v)) ∨
    exec (.probe sp) s = .next (raises s 5 0) ∨
    (low32 s.arg0 ≠ 0 ∧ low32 s.arg0 ≠ 1 ∧
      exec (.probe sp) s = .next (raises s 4 (BitVec.ofInt 64 (low32 s.arg0)))) := by
  obtain ⟨-, hoff⟩ | ⟨-, -, hoff⟩ | ⟨-, -, hoff⟩ | ⟨h0, h1, hoff⟩ :=
    probeOffset_cases sp (low32 s.arg0) s.arg1.toInt (low32 s.arg2)
  · exact .inl ⟨_, exec_probe_of_offset hcap hatt hoff⟩
  · exact .inl ⟨_, exec_probe_of_offset hcap hatt hoff⟩
  · exact .inr (.inl (exec_probe_of_offset_error hcap hatt hoff))
  · exact .inr (.inr ⟨h0, h1, exec_probe_of_offset_error hcap hatt hoff⟩)

end LegalCapacity

/-! ### The obligations -/

/-- Settles O37: the bit test says the capacity is not legal, and that check is the first. -/
theorem probeRejectsBadCapacity : Obligations.ProbeRejectsBadCapacity := by
  intro s sp hbad
  apply exec_probe_of_illegalCapacity
  rw [← Bool.not_eq_true, low32, capacityLegal_toInt_iff, not_and_or, not_lt]
  exact hbad

/-- Settles O39: from attempt 1 on, none of the three ways to end is E_ATTEMPT or E_CAPACITY. -/
theorem probeRejectsBadAttempt : Obligations.ProbeRejectsBadAttempt := by
  intro s sp k hcap
  refine ⟨exec_probe_of_attempt_lt_one hcap, fun hatt => ?_⟩
  obtain ⟨v, h⟩ | h | ⟨-, -, h⟩ := exec_probe_legal_cases sp hcap hatt
  all_goals exact ⟨_, h, by simp [returns, raises]⟩

/-- Settles O40: E_PTYPE is the third way to end, which the tags 0 and 1 exclude. -/
theorem probeRejectsUnknownTag : Obligations.ProbeRejectsUnknownTag := by
  intro s sp k hcap hatt
  refine ⟨fun h0 h1 => exec_probe_of_offset_error hcap hatt (probeOffset_unknownTag sp _ _ h0 h1),
    fun htag => ?_⟩
  obtain ⟨v, h⟩ | h | ⟨h0, h1, -⟩ := exec_probe_legal_cases sp hcap hatt
  · exact ⟨_, h, by simp [returns]⟩
  · exact ⟨_, h, by simp [raises]⟩
  · exact absurd htag (not_or.2 ⟨h0, h1⟩)

/-- Settles O42: the offset of tag 1 is the attempt times the odd step, and the mask is the
residue. -/
theorem probeDoubleHashIndex : Obligations.ProbeDoubleHashIndex := by
  intro s k hcap hatt htag
  exact exec_probe_of_offset hcap hatt (htag ▸ probeOffset_doubleHashing _ _)

/-- Settles O43: the offset of tag 0 reads neither `SP` nor `ARG1`, and 0 has the odd step 1. -/
theorem probeSecondaryHashPresence : Obligations.ProbeSecondaryHashPresence := by
  intro s k hcap hatt
  refine ⟨fun htag => ?_, fun htag => ?_, fun htag hzero => ?_⟩
  · exact exec_probe_of_offset_error hcap hatt (htag ▸ probeOffset_missingHash _ _)
  · have hquad (sp : Bool) (h : Int) : probeOffset sp (low32 s.arg0) h (low32 s.arg2) =
        .ok (triangular (low32 s.arg2)) := htag ▸ probeOffset_quadratic sp h _
    exact ⟨_, fun h => ⟨exec_probe_of_offset (s := { s with arg1 := h }) hcap hatt (hquad true _),
      exec_probe_of_offset hcap hatt (hquad false _)⟩⟩
  · refine exec_probe_of_offset hcap hatt ?_
    rw [htag, hzero, probeOffset_doubleHashing, probeStep_zero, Nat.cast_one, Int.mul_one]

end Sys2Proof.Machine
end

section
/-!
SUPPORT. How a command word ends (60_exceptions.md R141, R143, R144): the eight error words of
`STATUS`, and the two ways `endCommand` leaves the result registers.
-/
namespace Sys2Proof.Machine

/-- The error words of `STATUS` are the eight of the table of codes (60_exceptions.md R141). -/
theorem statusError_mem (e : ErrorName) :
    statusError e = 0x12 ∨ statusError e = 0x22 ∨ statusError e = 0x32 ∨ statusError e = 0x42 ∨
      statusError e = 0x52 ∨ statusError e = 0x62 ∨ statusError e = 0x72 ∨
      statusError e = 0x82 := by
  cases e <;> decide

/-- A success reports no error datum; an error leaves `RES` alone and `STATUS` holds one of the
eight error words (60_exceptions.md R143, R144). -/
theorem endCommand_success_or_error (o : Except Raised Word) (s : State) :
    let t := endCommand o s
    (t.status = 0x01 ∧ t.errinfo = 0) ∨
    (t.res = s.res ∧ (t.status = 0x12 ∨ t.status = 0x22 ∨ t.status = 0x32 ∨ t.status = 0x42 ∨
      t.status = 0x52 ∨ t.status = 0x62 ∨ t.status = 0x72 ∨ t.status = 0x82)) := by
  cases o with
  | ok v => exact .inl ⟨endCommand_ok_status s v, endCommand_ok_errinfo s v⟩
  | error r => exact .inr ⟨endCommand_error_res s r, statusError_mem r.error⟩

/-- Settles O14: a command word ends some outcome, which is a success or an error, and `endCommand`
touches only the result registers. -/
theorem commandEndsOneOfTwoWays : Obligations.CommandEndsOneOfTwoWays := by
  intro s host w rest hp
  obtain ⟨o, draws, hexec, -⟩ := executeWord_next w { s with pending := rest }
  refine ⟨_, (step_command hp).trans hexec, endCommand_success_or_error o _, ?_⟩
  simp

end Sys2Proof.Machine
end

section
/-!
SUPPORT. The round trip of the encoding (30_encoding.md R61, R62, R70) and the step of the whole
machine: what it does at each event, and the one place where it stops (20_memory.md R45).
-/
namespace Sys2Proof.Machine
open Sys2Proof.Claims

/-- With nothing pending a step changes nothing (60_exceptions.md R148; log entry 3). -/
theorem step_idle {s : State} (h : s.pending = []) : step s = .next s := by
  simp [step, stepEvents, h]

/-- A host's store to the table memory. -/
theorem step_memWrite {s : State} {host : Nat} {ea v : Word} {rest : List Event}
    (h : s.pending = .memWrite host ea v :: rest) :
    step s = .next { s with pending := rest, tm := s.tm.hostWrite ea v } :=
  step_pending h

/-- A write the window accepts leads to a next state, at `CMD` too. -/
theorem busWrite_next (off : Nat) (v : Word) (s : State) : ∃ t, busWrite off v s = .next t := by
  unfold busWrite
  split
  · obtain ⟨_, _, h, -⟩ := executeWord_next v s
    exact ⟨_, h⟩
  · exact ⟨_, rfl⟩

/-- An event that is no window access, or one the window accepts, leads to a next state. -/
theorem perform_next {e : Event} (h : eventWf e = true) (s : State) :
    ∃ t, perform e s = .next t := by
  cases e with
  | busRead host width off => exact ⟨_, if_pos h⟩
  | busWrite host width off v =>
    obtain ⟨t, ht⟩ := busWrite_next off v s
    exact ⟨t, (if_pos h).trans ht⟩
  | memWrite host ea v => exact ⟨_, rfl⟩
  | reset => exact ⟨_, rfl⟩

/-- A safe step answers a next state. -/
theorem step_next_of_safeStep {s : State} (h : safeStep s = true) : ∃ t, step s = .next t := by
  cases hp : s.pending with
  | nil => exact ⟨s, step_idle hp⟩
  | cons e rest =>
    rw [step_pending hp]
    exact perform_next (by simpa [safeStep, hp] using h) _

/-- A safe step meets only window accesses that the window accepts (20_memory.md R45). -/
theorem accepted_of_safeStep {s : State} (h : safeStep s = true) {host width off : Nat} {v : Word}
    {rest : List Event} (hp : s.pending = .busRead host width off :: rest ∨
      s.pending = .busWrite host width off v :: rest) :
    width = 64 ∧ off % 8 = 0 ∧ off < 256 := by
  obtain hp | hp := hp <;> simpa [safeStep, hp, eventWf] using h

/-- A step that is not safe meets a window access that is refused by name (20_memory.md R45). -/
theorem step_refused_of_not_safeStep {s : State} (h : ¬ safeStep s = true) :
    ∃ host width off v rest, ¬ (width = 64 ∧ off % 8 = 0 ∧ off < 256) ∧
      (s.pending = .busRead host width off :: rest ∨
        s.pending = .busWrite host width off v :: rest) ∧
      step s = .refused (.accessNotAccepted width off) := by
  unfold safeStep at h
  split at h
  · exact absurd rfl h
  · next e rest hp =>
    cases e with
    | busRead host width off =>
      exact ⟨host, width, off, 0, rest, mt (accepted_iff width off).2 h, .inl hp,
        step_busRead_refused hp h⟩
    | busWrite host width off v =>
      exact ⟨host, width, off, v, rest, mt (accepted_iff width off).2 h, .inr hp,
        step_busWrite_refused hp h⟩
    | memWrite host ea v => exact absurd rfl h
    | reset => exact absurd rfl h

/-! ### The obligations -/

/-- Settles O3: each command has exactly one word, the one the encoder writes. -/
theorem decodeAndEncodeAreInverse : Obligations.DecodeAndEncodeAreInverse :=
  ⟨fun i _ => decode_encode i, fun _ _ h => (decode_eq_command_iff.1 h).symm⟩

/-- Settles O1: the five words are those the encoder writes. -/
theorem legalWordsDecode : Obligations.LegalWordsDecode :=
  ⟨decode_encode .modmul, decode_encode .tabhash, decode_encode .unihash,
    decode_encode (.probe false), decode_encode (.probe true)⟩

/-- Settles O5: the step is `Execute(w)`, which runs the command `w` decodes to. -/
theorem stepRunsDecodedCommand : Obligations.StepRunsDecodedCommand :=
  fun _ _ _ _ _ hp hw => (step_command hp).trans (executeWord_command hw _)

/-- Settles O6. -/
theorem idleBlockKeepsItsState : Obligations.IdleBlockKeepsItsState := fun _ hp => step_idle hp

/-- Settles O9: no offset from 256 on is accepted. -/
theorem accessBeyondWindowRefused : Obligations.AccessBeyondWindowRefused := by
  intro s host width off rest hoff
  have hacc : ¬ accepted width off = true := by
    rw [accepted_iff]
    omega
  exact ⟨fun hp => step_busRead_refused hp hacc, fun v hp => step_busWrite_refused hp hacc⟩

/-- Settles O13: a step is safe, and then answers a next state, or it is refused. -/
theorem stepStopsOnlyAtUnacceptedAccess : Obligations.StepStopsOnlyAtUnacceptedAccess := by
  intro s
  by_cases h : safeStep s = true
  · exact .inl ⟨step_next_of_safeStep h, fun _ _ _ _ _ hp => accepted_of_safeStep h hp⟩
  · exact .inr (step_refused_of_not_safeStep h)

end Sys2Proof.Machine
end

section
/-!
SUPPORT. The invariant `Inv` (10_state.md R25, R26, R33; 20_memory.md R41, R46): what a store does to
the set of listed bytes, and that each event of a step keeps the invariant.
-/
namespace Sys2Proof.Machine

/-! ### The listed bytes after a store -/

/-- A byte belongs to the element its address names (20_memory.md R44 (c)). -/
theorem byte_inside_or_outside (ea : Word) (a : Nat) :
    (a / 8 = ea.toNat ∧ ∃ k < 8, a = elementBase ea + k) ∨
    (a / 8 ≠ ea.toNat ∧ (a < elementBase ea ∨ elementBase ea + 8 ≤ a)) := by
  unfold elementBase
  by_cases h : a / 8 = ea.toNat
  · exact .inl ⟨h, a % 8, by omega, by omega⟩
  · exact .inr ⟨h, by omega⟩

/-- A store lists the bytes of its element and no other byte. -/
theorem isSome_byteAt_store (m : Memory) (ea v : Word) (a : Nat) :
    ((m.store ea v).byteAt a).isSome = (decide (a / 8 = ea.toNat) || (m.byteAt a).isSome) := by
  obtain ⟨hdiv, k, hk, rfl⟩ | ⟨hdiv, hout⟩ := byte_inside_or_outside ea a
  · simp [byteAt_store_inside m ea v hk, hdiv]
  · simp [byteAt_store_outside m ea v hout, hdiv]

/-- A host's store keeps the memory made of whole elements (20_memory.md R41, R46). -/
theorem hostWrite_whole {m : Memory} (ea v : Word)
    (h : ∀ a, (m.byteAt a).isSome = (m.byteAt (8 * (a / 8))).isSome) (a : Nat) :
    ((m.hostWrite ea v).byteAt a).isSome = ((m.hostWrite ea v).byteAt (8 * (a / 8))).isSome := by
  unfold Memory.hostWrite
  split
  · rw [isSome_byteAt_store, isSome_byteAt_store, h a, Nat.mul_div_cancel_left _ (by decide)]
  · exact h a

/-- A host's store lists only elements the platform backs (log entry 5). -/
theorem hostWrite_backed {m : Memory} (ea v : Word)
    (h : ∀ a, (m.byteAt a).isSome → Config.tmDomain (BitVec.ofNat 64 (a / 8)) = true) (a : Nat)
    (ha : ((m.hostWrite ea v).byteAt a).isSome) :
    Config.tmDomain (BitVec.ofNat 64 (a / 8)) = true := by
  unfold Memory.hostWrite at ha
  split at ha
  · next hbacked =>
    rw [isSome_byteAt_store, Bool.or_eq_true, decide_eq_true_eq] at ha
    obtain hdiv | ha := ha
    · rwa [hdiv, BitVec.ofNat_toNat, BitVec.setWidth_eq]
    · exact h a ha
  · exact h a ha

/-! ### What each event keeps -/

/-- The reset state meets the invariant: nothing is listed and every register is zero. -/
theorem inv_reset : Inv State.reset where
  tmCanonical := rfl
  tmWhole _ := rfl
  tmBacked _ h := by simp [State.reset, Memory.byteAt] at h
  status := .inl rfl
  errinfo _ := rfl

/-- The invariant reads the table memory, `STATUS` and `ERRINFO` only. -/
theorem Inv.of_eq {s t : State} (h : Inv s) (htm : t.tm = s.tm) (hstatus : t.status = s.status)
    (herrinfo : t.errinfo = s.errinfo) : Inv t where
  tmCanonical := htm ▸ h.tmCanonical
  tmWhole := htm ▸ h.tmWhole
  tmBacked := htm ▸ h.tmBacked
  status := hstatus ▸ h.status
  errinfo := by rw [hstatus, herrinfo]; exact h.errinfo

/-- `STATUS` after an error is one of its legal values (60_exceptions.md R143). -/
theorem statusLegal_statusError (e : ErrorName) : statusLegal (statusError e) :=
  .inr (.inr ⟨_, (errorCode_range e).1, (errorCode_range e).2, statusError_eq e⟩)

/-- `ERR` is set after an error (60_exceptions.md R143). -/
theorem statusErr_statusError (e : ErrorName) : statusErr (statusError e) = true :=
  (statusError_fields e).2.1

/-- A command's end keeps the invariant, whichever way it ends. -/
theorem Inv.endCommand {s : State} (h : Inv s) (o : Except Raised Word) :
    Inv (endCommand o s) where
  tmCanonical := by rw [endCommand_tm]; exact h.tmCanonical
  tmWhole := by rw [endCommand_tm]; exact h.tmWhole
  tmBacked := by rw [endCommand_tm]; exact h.tmBacked
  status := by
    cases o with
    | ok v => exact .inr (.inl rfl)
    | error r => exact statusLegal_statusError r.error
  errinfo herr := by
    cases o with
    | ok v => rfl
    | error r => simp [statusErr_statusError] at herr

/-- A host's store keeps the invariant. -/
theorem Inv.hostWrite {s : State} (h : Inv s) (ea v : Word) :
    Inv { s with tm := s.tm.hostWrite ea v } where
  tmCanonical := hostWrite_wf ea v h.tmCanonical
  tmWhole := hostWrite_whole ea v h.tmWhole
  tmBacked := hostWrite_backed ea v h.tmBacked
  status := h.status
  errinfo := h.errinfo

/-- The block's reset keeps the invariant: the registers become zero, TM is not touched. -/
theorem Inv.resetBlock {s : State} (h : Inv s) : Inv (resetBlock s) where
  tmCanonical := h.tmCanonical
  tmWhole := h.tmWhole
  tmBacked := h.tmBacked
  status := .inl rfl
  errinfo _ := rfl

/-! ### The obligations -/

/-- Settles O11. -/
theorem resetMeetsTheInvariant : Obligations.ResetMeetsTheInvariant := inv_reset

/-- Settles O12, by what the step does: only a command, a store and a reset write what the invariant
reads. -/
theorem stepKeepsTheInvariant : Obligations.StepKeepsTheInvariant := by
  intro s t h hstep
  have hpop (rest : List Event) : Inv { s with pending := rest } := h.of_eq rfl rfl rfl
  obtain ⟨-, rfl⟩ | ⟨host, off, rest, -, rfl⟩ | ⟨host, w, rest, -, hexec⟩ |
    ⟨host, off, v, rest, -, -, rfl⟩ | ⟨host, ea, v, rest, -, rfl⟩ | ⟨rest, -, rfl⟩ :=
    step_cases hstep
  · exact h
  · exact h.of_eq rfl rfl rfl
  · obtain ⟨o, draws, hend, -⟩ := executeWord_next w { s with pending := rest }
    rw [hend, Host.Outcome.next.injEq] at hexec
    subst hexec
    apply Inv.endCommand
    exact h.of_eq rfl rfl rfl
  · exact h.of_eq (windowWrite_tm _ _ _) (windowWrite_status _ _ _) (windowWrite_errinfo _ _ _)
  · exact (hpop rest).hostWrite ea v
  · exact (hpop rest).resetBlock

end Sys2Proof.Machine
end

section
/-!
SUPPORT. A host's store to the table memory (00_scope.md R11, 20_memory.md R41): what the stored
element, every other element and every byte outside the element read as, backed or not.
-/
namespace Sys2Proof.Machine
variable (m : Memory) (ea v : Word)

theorem hostWrite_of_backed (h : Config.tmDomain ea = true) : m.hostWrite ea v = m.store ea v :=
  if_pos h

/-- An element the platform does not back holds nothing (log entry 5). -/
theorem hostWrite_of_not_backed (h : ¬ Config.tmDomain ea = true) : m.hostWrite ea v = m :=
  if_neg h

theorem elementAt_hostWrite_same : (m.hostWrite ea v).elementAt ea =
    if Config.tmDomain ea = true then some v else m.elementAt ea := by
  split
  · next h => rw [hostWrite_of_backed m ea v h, elementAt_store_same]
  · next h => rw [hostWrite_of_not_backed m ea v h]

theorem elementAt_hostWrite_other {ea' : Word} (hne : ea' ≠ ea) :
    (m.hostWrite ea v).elementAt ea' = m.elementAt ea' := by
  by_cases h : Config.tmDomain ea = true
  · rw [hostWrite_of_backed m ea v h, elementAt_store_other m v hne]
  · rw [hostWrite_of_not_backed m ea v h]

theorem byteAt_hostWrite_outside {a : Nat} (hout : a < elementBase ea ∨ elementBase ea + 8 ≤ a) :
    (m.hostWrite ea v).byteAt a = m.byteAt a := by
  by_cases h : Config.tmDomain ea = true
  · rw [hostWrite_of_backed m ea v h, byteAt_store_outside m ea v hout]
  · rw [hostWrite_of_not_backed m ea v h]

/-- Settles O21: the memory after the step is the host's store. -/
theorem hostStoreWritesOneElement : Obligations.HostStoreWritesOneElement := by
  intro s host ea v rest hp
  refine ⟨s.tm.hostWrite ea v, step_memWrite hp, elementAt_hostWrite_same _ ea v, ?_,
    fun a hout => byteAt_hostWrite_outside _ ea v hout,
    fun ea' hne => elementAt_hostWrite_other _ ea v hne⟩
  by_cases h : Config.tmDomain ea = true
  · exact .inl h
  · exact .inr (hostWrite_of_not_backed _ ea v h)

end Sys2Proof.Machine
end

section
/-!
SUPPORT. The statement about MODMUL's loop (40_modmul.md R84, R87).
-/
namespace Sys2Proof.Machine

/-- Settles O24, by the loop's invariant; that the modulus is positive follows from `res < p`. -/
theorem shiftAddLoopMultiplies : Obligations.ShiftAddLoopMultiplies :=
  fun _ _ _ _ _ _ hx hres => shiftAdd_eq hx hres

end Sys2Proof.Machine
end

section
/-!
SUPPORT. TABHASH on lanes that pass (41_tabhash.md R90 to R101): the fold completes whatever the
memory holds, and it reads nothing but the elements those lanes select.
-/
namespace Sys2Proof.Machine
open Sys2Proof.Claims

/-! ### The fold over the lanes -/

/-- Lanes that pass are folded to the end, with at most one draw per lane (R96; log entry 4). -/
theorem foldLanes_completes (tm : Memory) {o : TabOperands} {n i : Nat} (acc : Word) (draws : Nat)
    (hpass : ∀ j, i ≤ j → j < i + n → laneError o j = none) :
    ∃ v d, d ≤ n ∧ foldLanes tm o n i acc draws = .ok (v, draws + d) := by
  induction n generalizing i acc draws with
  | zero => exact ⟨acc, 0, le_rfl, rfl⟩
  | succ n ih =>
    rw [foldLanes_step (hpass i le_rfl (by omega))]
    obtain ⟨hge, hle⟩ := read_draws tm draws (laneAddress o i)
    generalize tm.read draws (laneAddress o i) = r at hge hle ⊢
    obtain ⟨v, d, hd, hfold⟩ := ih (i := i + 1) (acc ^^^ r.1) r.2
      fun j hij hj => hpass j (by omega) (by omega)
    refine ⟨v, (r.2 - draws) + d, by omega, ?_⟩
    rw [hfold, ← Nat.add_assoc, Nat.add_sub_cancel' hge]

/-- The read of an element is the same in memories that agree on it, if it has a value or the
counters agree too (R101; log entry 4). -/
theorem read_congr {m m' : Memory} {ea : Word} {draws draws' : Nat}
    (helement : m.elementAt ea = m'.elementAt ea)
    (hvalue : draws = draws' ∨ (m.elementAt ea).isSome) :
    (m.read draws ea).1 = (m'.read draws' ea).1 ∧
      (draws = draws' → (m.read draws ea).2 = (m'.read draws' ea).2) := by
  cases h : m.elementAt ea with
  | some v => simp [read_some h, read_some (helement ▸ h)]
  | none =>
    obtain rfl : draws = draws' := by simpa [h] using hvalue
    simp [read_none h, read_none (helement ▸ h)]

/-- The fold reads the elements of the lanes that pass, and no others (R101). -/
theorem foldLanes_congr {tm tm' : Memory} {o : TabOperands} {n i : Nat} (acc : Word)
    {draws draws' : Nat}
    (helement : ∀ j, i ≤ j → j < i + n → laneError o j = none →
      tm.elementAt (laneAddress o j) = tm'.elementAt (laneAddress o j))
    (hvalue : draws = draws' ∨ ∀ j, i ≤ j → j < i + n → laneError o j = none →
      (tm.elementAt (laneAddress o j)).isSome) :
    (foldLanes tm o n i acc draws).map Prod.fst = (foldLanes tm' o n i acc draws').map Prod.fst := by
  induction n generalizing i acc draws draws' with
  | zero => rfl
  | succ n ih =>
    cases hlane : laneError o i with
    | some e => rw [foldLanes_error hlane, foldLanes_error hlane]
    | none =>
      obtain ⟨hfst, hsnd⟩ := read_congr (helement i le_rfl (by omega) hlane)
        (hvalue.imp_right fun h => h i le_rfl (by omega) hlane)
      rw [foldLanes_step hlane, foldLanes_step hlane, hfst]
      exact ih _ (fun j hij hj => helement j (by omega) (by omega))
        (hvalue.imp hsnd fun h j hij hj => h j (by omega) (by omega))

/-! ### The command -/

/-- A TABHASH that succeeds changes the result registers and the counter only. -/
theorem exec_tabhash_of_ok_draws {s : State} {v : Word} {draws : Nat}
    (h : tabhashOutcome s = .ok (v, draws)) :
    exec .tabhash s = .next { returns s v with draws := draws } := by
  rw [exec, execTabhash, h]
  rfl

/-- Either every lane is legal, or there is a lowest lane that is not (R97). -/
theorem lanes_legal_or_lowest_not (s : State) (n : Nat) :
    (∀ i < n, laneLegal s i) ∨ ∃ i < n, (∀ j < i, laneLegal s j) ∧ ¬ laneLegal s i := by
  induction n with
  | zero => exact .inl fun i hi => absurd hi i.not_lt_zero
  | succ n ih =>
    obtain hall | ⟨i, hi, hfail⟩ := ih
    · by_cases hn : laneLegal s n
      · exact .inl (Nat.forall_lt_succ_right.2 ⟨hall, hn⟩)
      · exact .inr ⟨n, n.lt_succ_self, hall, hn⟩
    · exact .inr ⟨i, by omega, hfail⟩

/-- A lane below `tableCount` has an index inside the table when a lane's share of the table holds
every byte, `bucketSize >= 256` (R95). -/
theorem indexLegal_of_bucketSize {s : State} {i : Nat} (hbucket : 256 ≤ low32 s.arg3)
    (hi : i < laneCount s) : indexLegal s i := by
  have hcount : (i : Int) + 1 ≤ low32 s.arg2 := by unfold laneCount at hi; omega
  have hbase : 0 ≤ (i : Int) * low32 s.arg3 := by positivity
  have hbound : ((i : Int) + 1) * low32 s.arg3 ≤ low32 s.arg2 * low32 s.arg3 := by gcongr
  unfold indexLegal indexOf
  constructor <;> linarith [Int.emod_nonneg (s.arg0.toInt / 2 ^ (shiftOf s i).toNat)
    (by decide : (256 : Int) ≠ 0), Int.emod_lt_of_pos
    (s.arg0.toInt / 2 ^ (shiftOf s i).toNat) (by decide : (0 : Int) < 256)]

/-- Every shift amount is legal when the last lane's is (R94). -/
theorem shiftLegal_of_last {s : State} {i : Nat} (hshift : 0 ≤ low32 s.arg4)
    (hlast : (low32 s.arg2 - 1) * low32 s.arg4 ≤ 63) (hi : i < laneCount s) : shiftLegal s i := by
  have hcount : (i : Int) ≤ low32 s.arg2 - 1 := by unfold laneCount at hi; omega
  exact ⟨Int.mul_nonneg i.cast_nonneg hshift,
    (Int.mul_le_mul_of_nonneg_right hcount hshift).trans hlast⟩

/-! ### The obligations -/

/-- Settles O33: the fold over legal lanes completes. -/
theorem tabhashCompletesOnLegalLanes : Obligations.TabhashCompletesOnLegalLanes := by
  intro s hhandle hlegal
  obtain ⟨v, d, hd, hfold⟩ := foldLanes_completes s.tm (o := tabOperands s) (n := laneCount s)
    (i := 0) 0 s.draws fun j _ hj => laneError_of_laneLegal (hlegal j (by omega))
  exact ⟨v, d, hd, exec_tabhash_of_ok_draws ((tabhashOutcome_of_handle hhandle).trans hfold)⟩

/-- Settles O34: the one lane reads a free value, and XOR with 0 leaves it as it is. -/
theorem unspecifiedElementIsFree : Obligations.UnspecifiedElementIsFree := by
  intro s hhandle hone hlegal hnone
  apply exec_tabhash_of_ok_draws
  rw [tabhashOutcome_of_handle hhandle, hone, foldLanes_step (laneError_of_laneLegal hlegal),
    laneAddress_tabOperands, read_none hnone, foldLanes]
  simp

/-- Settles O35: with such a bucket size the lowest failing lane, if there is one, has a bad shift
amount. -/
theorem tabhashUsefulShapeSucceeds : Obligations.TabhashUsefulShapeSucceeds := by
  intro s hhandle hcount hbucket
  refine ⟨?_, fun hshift hlast => ?_⟩
  · obtain hall | ⟨i, hi, hbelow, hfail⟩ := lanes_legal_or_lowest_not s (laneCount s)
    · obtain ⟨v, d, -, h⟩ := tabhashCompletesOnLegalLanes s hhandle hall
      exact ⟨_, h, by simp [returns]⟩
    · have hshift : ¬ shiftLegal s i := fun h => hfail ⟨h, indexLegal_of_bucketSize hbucket hi⟩
      exact ⟨_, tabhashReportsBadShift s i hhandle hi hbelow hshift, by simp [raises]⟩
  · obtain ⟨v, d, -, h⟩ := tabhashCompletesOnLegalLanes s hhandle fun i hi =>
      ⟨shiftLegal_of_last hshift hlast hi, indexLegal_of_bucketSize hbucket hi⟩
    exact ⟨_, h, rfl⟩

end Sys2Proof.Machine
end

section
/-!
SUPPORT. What a command's outcome depends on (00_scope.md R3, 10_state.md R22, R23, 41_tabhash.md
R101), and what a command leaves unchanged (60_exceptions.md R143).
-/
namespace Sys2Proof.Machine
open Sys2Proof.Claims

/-! ### Ending alike -/

/-- Two runs with the same outcome end alike, whatever else the states hold. -/
theorem sameOutcome_of_outcome_eq {i : Instr} {s s' : State}
    (h : (outcomeOf i s).1 = (outcomeOf i s').1) : sameOutcome i s s' := by
  refine ⟨_, _, exec_eq i s, exec_eq i s', ?_⟩
  rw [h]
  cases (outcomeOf i s').1 with
  | ok v => exact ⟨rfl, rfl, fun _ => rfl⟩
  | error r => exact ⟨rfl, rfl, fun hok => absurd hok (statusError_ne_success r.error)⟩

/-- TABHASH's outcome, without the counter. -/
theorem outcomeOf_tabhash (s : State) :
    (outcomeOf .tabhash s).1 = (tabhashOutcome s).map Prod.fst := by
  unfold outcomeOf
  cases tabhashOutcome s <;> rfl

/-! ### What each outcome depends on -/

section
variable {s s' : State}

/-- MODMUL reads `ARG0` to `ARG2` (10_state.md R22). -/
theorem modmulOutcome_congr (h0 : s.arg0 = s'.arg0) (h1 : s.arg1 = s'.arg1)
    (h2 : s.arg2 = s'.arg2) : modmulOutcome s = modmulOutcome s' := by
  rw [modmulOutcome, modmulOutcome, h0, h1, h2]

/-- UNIHASH reads `ARG0` to `ARG2` (10_state.md R22). -/
theorem unihashOutcome_congr (h0 : s.arg0 = s'.arg0) (h1 : s.arg1 = s'.arg1)
    (h2 : s.arg2 = s'.arg2) : unihashOutcome s = unihashOutcome s' := by
  rw [unihashOutcome_eq, unihashOutcome_eq, h0, h1, h2]

/-- PROBE reads the low halves of four registers, and `ARG1` by way of its offset only
(10_state.md R22, R23). -/
theorem probeOutcome_congr {sp : Bool}
    (hoff : probeOffset sp (low32 s.arg0) s.arg1.toInt (low32 s.arg2) =
      probeOffset sp (low32 s'.arg0) s'.arg1.toInt (low32 s'.arg2))
    (h2 : low32 s.arg2 = low32 s'.arg2) (h3 : low32 s.arg3 = low32 s'.arg3)
    (h4 : low32 s.arg4 = low32 s'.arg4) : probeOutcome sp s = probeOutcome sp s' := by
  simp only [probeOutcome, s32_eq_low32, s64, h2, h3, h4, ← hoff]

/-- Without `SP` the offset does not read `ARG1` (10_state.md R22). -/
theorem probeOffset_without_sp (ty h h' t : Int) :
    probeOffset false ty h t = probeOffset false ty h' t := rfl

/-- TABHASH reads its operands, and the elements its lanes select (41_tabhash.md R101). -/
theorem tabhashOutcome_congr (hops : tabOperands s = tabOperands s')
    (helement : ∀ i < laneCount s, laneError (tabOperands s) i = none →
      s.tm.elementAt (addressOf s i) = s'.tm.elementAt (addressOf s i))
    (hvalue : s.draws = s'.draws ∨ ∀ i < laneCount s, laneError (tabOperands s) i = none →
      (s.tm.elementAt (addressOf s i)).isSome) :
    (tabhashOutcome s).map Prod.fst = (tabhashOutcome s').map Prod.fst := by
  have hkey : s.arg0 = s'.arg0 := congrArg TabOperands.key hops
  have hhandle : s.arg1 = s'.arg1 := congrArg TabOperands.handle hops
  have hcount : laneCount s = laneCount s' :=
    congrArg (fun o : TabOperands => o.tableCount.toNat) hops
  by_cases hnull : s.arg1 = 0
  · rw [tabhashOutcome_of_null hnull, tabhashOutcome_of_null (hhandle ▸ hnull), hkey]
    rfl
  · rw [tabhashOutcome_of_handle hnull, tabhashOutcome_of_handle (hhandle ▸ hnull), ← hops,
      ← hcount]
    simp only [← laneAddress_tabOperands] at helement hvalue
    exact foldLanes_congr 0 (fun j _ hj => helement j (by omega))
      (hvalue.imp_right fun h j _ hj => h j (by omega))

end

/-- A lane that passes is legal. -/
theorem laneLegal_of_laneError {s : State} {i : Nat} (h : laneError (tabOperands s) i = none) :
    laneLegal s i := by
  rw [laneError_tabOperands] at h
  split at h
  · next hshift =>
    split at h
    · next hindex => exact ⟨hshift, hindex⟩
    · cases h
  · cases h

/-! ### The obligations -/

/-- Settles O15: a command is its outcome, recorded by `endCommand` in the result registers. -/
theorem commandsChangeOnlyResultRegisters : Obligations.CommandsChangeOnlyResultRegisters := by
  intro i s t h
  rw [exec_eq, Host.Outcome.next.injEq] at h
  subst h
  refine ⟨endCommand_arg0 _ _, endCommand_arg1 _ _, endCommand_arg2 _ _, endCommand_arg3 _ _,
    endCommand_arg4 _ _, fun a => by rw [endCommand_tm], endCommand_tm _ _,
    endCommand_pending _ _, endCommand_returned _ _, ?_⟩
  rintro (hi | hstatus)
  · simpa using outcomeOf_draws s hi
  · cases ho : (outcomeOf i s).1 with
    | ok v => simp [ho] at hstatus
    | error r => simpa using outcomeOf_error_draws ho

/-- Settles O20: PROBE and TABHASH read those registers by way of `low32`. -/
theorem upperHalvesAreIgnored : Obligations.UpperHalvesAreIgnored := by
  intro s s' h1 h2 h3 h4
  refine ⟨fun sp h0 => sameOutcome_of_outcome_eq ?_, fun h0 htm hdraws =>
    sameOutcome_of_outcome_eq ?_⟩
  · exact probeOutcome_congr (by rw [h0, h1, h2]) h2 h3 h4
  · have hops : tabOperands s = tabOperands s' := by
      simp only [tabOperands, s32_eq_low32, h0, h1, h2, h3, h4]
    rw [outcomeOf_tabhash, outcomeOf_tabhash]
    exact tabhashOutcome_congr hops (fun i _ _ => by rw [htm]) (.inl hdraws)

/-- Settles O36: a lane that passes is legal, and only its element is read. -/
theorem tabhashDependsOnSelectedElements : Obligations.TabhashDependsOnSelectedElements := by
  intro s s' h0 h1 h2 h3 h4 helement hvalue
  apply sameOutcome_of_outcome_eq
  have hops : tabOperands s = tabOperands s' := by rw [tabOperands, h0, h1, h2, h3, h4, tabOperands]
  rw [outcomeOf_tabhash, outcomeOf_tabhash]
  exact tabhashOutcome_congr hops (fun i hi h => helement i hi (laneLegal_of_laneError h))
    (hvalue.imp_right fun hsome i hi h => hsome i hi (laneLegal_of_laneError h))

/-- Settles O19, command by command. -/
theorem unlistedRegistersHaveNoEffect : Obligations.UnlistedRegistersHaveNoEffect := by
  intro s s'
  refine ⟨fun h0 h1 h2 => ⟨?_, ?_⟩, fun h0 hnull hnull' => ?_,
    fun h0 h2 h3 h4 => ⟨?_, fun h1 => ?_⟩⟩
  all_goals apply sameOutcome_of_outcome_eq
  · exact modmulOutcome_congr h0 h1 h2
  · exact unihashOutcome_congr h0 h1 h2
  · rw [outcomeOf_tabhash, outcomeOf_tabhash, tabhashOutcome_of_null hnull,
      tabhashOutcome_of_null hnull', h0]
    rfl
  · refine probeOutcome_congr ?_ (by rw [h2]) (by rw [h3]) (by rw [h4])
    rw [h0, h2]
    exact probeOffset_without_sp _ _ _ _
  · exact probeOutcome_congr (by rw [h0, h1, h2]) (by rw [h2]) (by rw [h3]) (by rw [h4])

/-- Settles O17: MODMUL and UNIHASH read registers only, and the other two are as with ignored upper
halves. -/
theorem commandsArePureFunctions : Obligations.CommandsArePureFunctions := by
  intro i s s' h0 h1 h2 h3 h4 htm hdraws
  obtain ⟨hmul, -, -⟩ := unlistedRegistersHaveNoEffect s s'
  obtain ⟨hprobe, htab⟩ :=
    upperHalvesAreIgnored s s' h1 (by rw [h2]) (by rw [h3]) (by rw [h4])
  cases i with
  | modmul => exact (hmul h0 h1 h2).1
  | tabhash => exact htab h0 htm hdraws
  | unihash => exact (hmul h0 h1 h2).2
  | probe sp => exact hprobe sp (by rw [h0])

/-- Settles O18: a failed command changes neither the operands nor the table memory nor the
counter. -/
theorem errorsAreNotSticky : Obligations.ErrorsAreNotSticky := by
  intro s t host w rest hp hstep herr i
  obtain ⟨o, draws, hexec, hdraws⟩ := executeWord_next w { s with pending := rest }
  rw [step_command hp, hexec, Host.Outcome.next.injEq] at hstep
  subst hstep
  have herror : ∃ r, o = .error r := by
    cases o with
    | ok v => simp at herr
    | error r => exact ⟨r, rfl⟩
  apply commandsArePureFunctions <;> simp [hdraws herror]

end Sys2Proof.Machine
end

section
/-!
SUPPORT. PROBE (43_probe.md R117 to R124): the legal capacities, the exact triangular offset, the
range of a result, and the secondary hashes with the same odd step.
-/
namespace Sys2Proof.Machine
open Sys2Proof.Claims

/-! ### The legal capacities -/

/-- The model's test accepts exactly the powers of two (R117). -/
theorem capacityLegal_iff_two_pow {c : Int} : capacityLegal c = true ↔ ∃ k : Nat, c = 2 ^ k := by
  constructor
  · intro h
    simp only [capacityLegal, Bool.and_eq_true, decide_eq_true_eq, beq_iff_eq] at h
    obtain ⟨hpos, hbit⟩ := h
    obtain ⟨k, hk⟩ := (Nat.and_sub_one_eq_zero_iff_isPowerOfTwo (by omega)).1 hbit
    refine ⟨k, ?_⟩
    rw [← Int.toNat_of_nonneg hpos.le, hk]
    norm_cast
  · rintro ⟨k, rfl⟩
    exact capacityLegal_two_pow k

/-- A 32-bit operand has no power of two above 2^30 (R117). -/
theorem capacityLegal_iff_capacityIs (s : State) :
    capacityLegal (low32 s.arg4) = true ↔ ∃ k, capacityIs s k := by
  rw [capacityLegal_iff_two_pow]
  refine ⟨fun ⟨k, hk⟩ => ⟨k, ?_, hk⟩, fun ⟨k, _, hk⟩ => ⟨k, hk⟩⟩
  have hlt : (2 : Int) ^ k < 2 ^ 31 := hk ▸ (s32_bounds s.arg4).2
  have := (pow_lt_pow_iff_right₀ (by decide : (1 : Int) < 2)).1 hlt
  omega

/-! ### A successful PROBE -/

/-- A PROBE that succeeds has a legal capacity, and its result is a residue modulo the capacity
(R115, R122). -/
theorem probeOutcome_ok {sp : Bool} {s : State} {v : Word} (h : probeOutcome sp s = .ok v) :
    ∃ k, capacityIs s k ∧ ∃ n : Int, v = BitVec.ofInt 64 (n % low32 s.arg4) := by
  by_cases hlegal : capacityLegal (low32 s.arg4) = true
  · obtain ⟨k, hcap⟩ := (capacityLegal_iff_capacityIs s).1 hlegal
    refine ⟨k, hcap, ?_⟩
    by_cases hatt : 1 ≤ low32 s.arg2
    · rw [probeOutcome_of_legal hcap hatt] at h
      cases hoff : probeOffset sp (low32 s.arg0) s.arg1.toInt (low32 s.arg2) with
      | ok off =>
        rw [hoff] at h
        exact ⟨_, (Except.ok.inj h).symm⟩
      | error e =>
        rw [hoff] at h
        cases h
    · have herror : probeOutcome sp s = .error ⟨.attempt, _⟩ :=
        (if_neg (not_illegalCapacity hcap)).trans (if_pos (not_le.1 hatt))
      cases h.symm.trans herror
  · have herror : probeOutcome sp s = .error ⟨.capacity, _⟩ := if_pos (Bool.eq_false_iff.2 hlegal)
    cases h.symm.trans herror

/-- A pattern below 2^30 has bits [63:30] clear. -/
theorem shiftRight_30_eq_zero {v : Word} (h : v.toNat < 2 ^ 30) : v >>> 30 = 0 := by
  apply BitVec.eq_of_toNat_eq
  rw [BitVec.toNat_ushiftRight, Nat.shiftRight_eq_div_pow, Nat.div_eq_of_lt h]
  rfl

/-! ### The offsets -/

/-- The triangular number is exact: one of two successive integers is even (R120, R121). -/
theorem two_mul_triangular (t : Int) : 2 * triangular t = t * (t + 1) :=
  Int.mul_ediv_cancel' (Int.even_mul_succ_self t).two_dvd

/-- A pattern and its negative have the same magnitude, the most negative pattern included (R123). -/
theorem natAbs_toInt_neg (h : Word) : (-h).toInt.natAbs = h.toInt.natAbs := by
  have := h.isLt
  rw [BitVec.toInt_neg, Int.bmod]
  have := BitVec.le_toInt h
  have := BitVec.toInt_lt (x := h)
  omega

/-- `OR 1` takes an even number and its successor to the successor (R123). -/
theorem or_one_of_even {n : Nat} (h : n % 2 = 0) : n ||| 1 = n + 1 ∧ (n + 1) ||| 1 = n + 1 := by
  have hor (a b : Nat) (hhigh : a / 2 = b / 2) (hodd : b % 2 = 1) : a ||| 1 = b := by
    have hdiv : (a ||| 1) / 2 = a / 2 := by rw [Nat.or_div_two]; simp
    have hmod : (a ||| 1) % 2 = 1 := by simp [Nat.or_mod_two_eq_one]
    omega
  exact ⟨hor _ _ (by omega) (by omega), hor _ _ (by omega) (by omega)⟩

/-- Hashes with the same odd step probe alike (R123). -/
theorem sameOutcome_of_probeStep_eq (s : State) {h : Word}
    (hstep : probeStep h.toInt = probeStep s.arg1.toInt) :
    sameOutcome (.probe true) { s with arg1 := h } s := by
  refine sameOutcome_of_outcome_eq (probeOutcome_congr ?_ rfl rfl rfl)
  simp only [probeOffset, hstep]

theorem probeStep_toInt_neg (h : Word) : probeStep (-h).toInt = probeStep h.toInt := by
  rw [probeStep, natAbs_toInt_neg, probeStep]

/-- An even hash that is not negative has the odd step of its successor (R123). -/
theorem probeStep_toInt_add_one {h : Word} (hnonneg : 0 ≤ h.toInt) (heven : h.toInt % 2 = 0) :
    probeStep (h + 1).toInt = probeStep h.toInt := by
  have hsucc : (h + 1).toInt.natAbs = h.toInt.natAbs + 1 := by
    have hone : (1 : Word).toInt = 1 := by decide
    have hlt := BitVec.toInt_lt (x := h)
    rw [BitVec.toInt_add, hone, Int.bmod]
    omega
  obtain ⟨hself, hnext⟩ := or_one_of_even (n := h.toInt.natAbs) (by omega)
  rw [probeStep, hsucc, hnext, probeStep, hself]

/-! ### The obligations -/

/-- Settles O38: both tests are the bit test, which accepts the powers of two. -/
theorem legalCapacitiesArePowersOfTwo : Obligations.LegalCapacitiesArePowersOfTwo := fun s =>
  ⟨capacityLegal_iff_capacityIs s,
    (capacityLegal_toInt_iff _).symm.trans (capacityLegal_iff_capacityIs s)⟩

/-- Settles O41: the offset of tag 0 is the triangular number of the attempt. -/
theorem probeQuadraticIndex : Obligations.ProbeQuadraticIndex := fun _ _ _ hcap hatt htag =>
  ⟨triangular _, two_mul_triangular _,
    exec_probe_of_offset hcap hatt (htag ▸ probeOffset_quadratic _ _ _)⟩

/-- Settles O44: a successful PROBE leaves a residue modulo a legal capacity. -/
theorem probeIndexBelowCapacity : Obligations.ProbeIndexBelowCapacity := by
  intro s t sp h hok
  rw [exec_probe, Host.Outcome.next.injEq] at h
  subst h
  cases hout : probeOutcome sp s with
  | error r =>
    rw [hout] at hok
    exact absurd hok (statusError_ne_success r.error)
  | ok v =>
    obtain ⟨k, ⟨hk, hpow⟩, n, rfl⟩ := probeOutcome_ok hout
    have hpos : 0 < low32 s.arg4 := by rw [hpow]; positivity
    have hle : low32 s.arg4 ≤ 2 ^ 30 := by
      rw [hpow]
      exact pow_le_pow_right₀ (by decide) hk
    obtain ⟨hnonneg, hlt⟩ := emod_range n hpos
    have hres := toNat_ofInt_small hnonneg (hlt.trans (by omega))
    rw [emod] at hlt hres
    exact ⟨by rwa [endCommand_ok_res, hres], hle,
      shiftRight_30_eq_zero (by rw [endCommand_ok_res]; omega)⟩

/-- Settles O45: the magnitude of a hash does not tell it from its negative, and `OR 1` does not tell
an even one from its successor. -/
theorem oddifiedHashesProbeAlike : Obligations.OddifiedHashesProbeAlike := by
  intro s
  refine ⟨sameOutcome_of_probeStep_eq s (probeStep_toInt_neg _), fun hnonneg heven => ?_⟩
  have hsucc := probeStep_toInt_add_one hnonneg heven
  exact ⟨sameOutcome_of_probeStep_eq s hsucc,
    sameOutcome_of_probeStep_eq s ((probeStep_toInt_neg _).trans hsucc)⟩

end Sys2Proof.Machine
end

section
/-!
SUPPORT. Coverage of the slots by PROBE (43_probe.md section 5): a slot as a residue, when two
attempts share a slot, and that as many attempts as there are slots reach every slot if none repeats.
-/
namespace Sys2Proof.Machine
open Sys2Proof.Claims

/-! ### Slots -/

/-- The slot of capacity `2^k` at this offset from the initial index `n` (43_probe.md R122, R124);
`exec_probe_atAttempt` ties it to the command. -/
def slotAt (k : Nat) (n off : Int) : Nat := ((n + off) % 2 ^ k).toNat

theorem natCast_slotAt (k : Nat) (n off : Int) : (slotAt k n off : Int) = (n + off) % 2 ^ k :=
  Int.toNat_of_nonneg (Int.emod_nonneg _ (by positivity))

theorem slotAt_lt (k : Nat) (n off : Int) : slotAt k n off < 2 ^ k := by
  have h := Int.emod_lt_of_pos (n + off) (by positivity : (0 : Int) < 2 ^ k)
  rw [← natCast_slotAt] at h
  exact_mod_cast h

/-- Two offsets give one slot when they differ by a multiple of the capacity. -/
theorem slotAt_eq_iff {k : Nat} {n a b : Int} :
    slotAt k n a = slotAt k n b ↔ (2 : Int) ^ k ∣ b - a := by
  rw [← Int.natCast_inj, natCast_slotAt, natCast_slotAt, ← add_sub_add_left_eq_sub b a n]
  exact Int.modEq_iff_dvd

/-- A function that takes as many arguments as there are slots to different slots takes them to every
slot. -/
theorem exists_slot_of_injOn {f : Nat → Nat} {attempts : Finset Nat} {c : Nat}
    (hcard : attempts.card = c) (hlt : ∀ m, f m < c)
    (hinj : ∀ m ∈ attempts, ∀ m' ∈ attempts, f m = f m' → m = m') {j : Nat} (hj : j < c) :
    ∃ m ∈ attempts, f m = j := by
  have hmaps : Set.MapsTo f attempts (Finset.range c) := fun m _ => by simpa using hlt m
  have hsurj := Finset.surjOn_of_injOn_of_card_le f hmaps
    (fun m hm m' hm' => hinj m hm m' hm') (by simp [hcard])
  exact hsurj (by simpa using hj)

/-! ### The command at an attempt -/

/-- An attempt number below 2^31 reads back (10_state.md R23). -/
theorem low32_ofNat {m : Nat} (h : m < 2 ^ 31) : low32 (BitVec.ofNat 64 m) = m := by
  rw [low32, BitVec.setWidth_ofNat_of_le (by decide), BitVec.toInt_eq_toNat_bmod,
    BitVec.toNat_ofNat, Int.bmod]
  omega

/-- PROBE at an attempt gives the slot at the attempt's offset. -/
theorem exec_probe_atAttempt {s : State} {sp : Bool} {k m : Nat} {off : Int}
    (hcap : capacityIs s k) (hm : 1 ≤ m) (hm' : m < 2 ^ 31)
    (hoff : probeOffset sp (low32 s.arg0) s.arg1.toInt m = .ok off) :
    exec (.probe sp) (atAttempt s m) =
      .next (returns (atAttempt s m) (BitVec.ofNat 64 (slotAt k (low32 s.arg3) off))) := by
  have hatt : low32 (atAttempt s m).arg2 = m := low32_ofNat hm'
  have hpow : low32 (atAttempt s m).arg4 = 2 ^ k := hcap.2
  rw [exec_probe_of_offset (s := atAttempt s m) hcap (by omega) (hatt ▸ hoff), hpow,
    ← BitVec.ofInt_natCast, natCast_slotAt]
  rfl

/-! ### Double hashing -/

theorem odd_probeStep (h : Int) : Odd (probeStep h : Int) := by
  have hmod : probeStep h % 2 = 1 := by simp [probeStep, Nat.or_mod_two_eq_one]
  exact_mod_cast Nat.odd_iff.2 hmod

/-- The slot of attempt `m` by double hashing (43_probe.md R124). -/
def doubleHashSlot (k : Nat) (n h : Int) (m : Nat) : Nat := slotAt k n (m * probeStep h)

/-- The step is odd, so two attempts share a slot only when they differ by a multiple of the
capacity. -/
theorem doubleHashSlot_eq_iff {k m m' : Nat} {n h : Int} :
    doubleHashSlot k n h m = doubleHashSlot k n h m' ↔ m ≡ m' [MOD 2 ^ k] := by
  have hcoprime : IsCoprime ((2 : Int) ^ k) (probeStep h) :=
    (Int.isCoprime_two_left.2 (odd_probeStep h)).pow_left
  rw [doubleHashSlot, doubleHashSlot, slotAt_eq_iff, ← sub_mul, Nat.modEq_iff_dvd, Nat.cast_pow,
    Nat.cast_ofNat]
  exact ⟨hcoprime.dvd_of_dvd_mul_right, (·.mul_right _)⟩

/-- No slot repeats in attempts `1 .. c`. -/
theorem doubleHashSlot_injOn (k : Nat) (n h : Int) : ∀ m ∈ Finset.Icc 1 (2 ^ k),
    ∀ m' ∈ Finset.Icc 1 (2 ^ k), doubleHashSlot k n h m = doubleHashSlot k n h m' → m = m' := by
  intro m hm m' hm' heq
  rw [Finset.mem_Icc] at hm hm'
  have hdiff : |(m' : Int) - m| < (2 ^ k : Nat) := by rw [abs_lt]; omega
  exact (doubleHashSlot_eq_iff.1 heq).eq_of_abs_lt hdiff

/-! ### Quadratic probing -/

/-- A power of two that divides a product of an even and an odd number divides one of the two. -/
theorem two_pow_dvd_or_dvd {a b : Int} {j : Nat} (hodd : Odd (a + b)) (h : (2 : Int) ^ j ∣ a * b) :
    (2 : Int) ^ j ∣ a ∨ (2 : Int) ^ j ∣ b := by
  have hcoprime {x : Int} (hx : Odd x) : IsCoprime ((2 : Int) ^ j) x :=
    (Int.isCoprime_two_left.2 hx).pow_left
  obtain ha | ha := Int.even_or_odd a
  · exact .inl ((hcoprime ((Int.odd_add'.1 hodd).2 ha)).dvd_of_dvd_mul_right h)
  · exact .inr ((hcoprime ha).dvd_of_dvd_mul_left h)

/-- The slot of attempt `m` by quadratic probing (43_probe.md R120); attempt 0 is the initial
slot. -/
def quadraticSlot (k : Nat) (n : Int) (m : Nat) : Nat := slotAt k n (triangular m)

/-- Two attempts share a slot when `2c` divides `(m' - m) (m' + m + 1)`, so when it divides one of
these two numbers, of which one is odd. -/
theorem quadraticSlot_eq_iff {k m m' : Nat} {n : Int} :
    quadraticSlot k n m = quadraticSlot k n m' ↔
      m ≡ m' [MOD 2 * 2 ^ k] ∨ 2 * 2 ^ k ∣ m' + m + 1 := by
  have hproduct : 2 * (triangular m' - triangular m) = ((m' : Int) - m) * (m' + m + 1) := by
    rw [mul_sub, two_mul_triangular, two_mul_triangular]
    ring
  have hodd : Odd (((m' : Int) - m) + (m' + m + 1)) := ⟨m', by ring⟩
  rw [quadraticSlot, quadraticSlot, slotAt_eq_iff,
    ← mul_dvd_mul_iff_left (two_ne_zero : (2 : Int) ≠ 0), hproduct, Nat.modEq_iff_dvd,
    ← Int.natCast_dvd_natCast, ← pow_succ', ← pow_succ']
  push_cast
  exact ⟨two_pow_dvd_or_dvd hodd, fun h => h.elim (·.mul_right _) (·.mul_left _)⟩

/-- No slot repeats in attempts `0 .. c - 1`. -/
theorem quadraticSlot_injOn (k : Nat) (n : Int) : ∀ m ∈ Finset.range (2 ^ k),
    ∀ m' ∈ Finset.range (2 ^ k), quadraticSlot k n m = quadraticSlot k n m' → m = m' := by
  intro m hm m' hm' heq
  rw [Finset.mem_range] at hm hm'
  obtain hmod | hdvd := quadraticSlot_eq_iff.1 heq
  · exact hmod.eq_of_lt_of_lt (by omega) (by omega)
  · have := Nat.le_of_dvd (by omega) hdvd
    omega

/-- The initial slot does not come again before attempt `2c - 1`. -/
theorem quadraticSlot_ne_zero_attempt {k m : Nat} {n : Int} (hm : 1 ≤ m)
    (hmc : m < 2 * 2 ^ k - 1) : quadraticSlot k n m ≠ quadraticSlot k n 0 := by
  intro heq
  obtain hmod | hdvd := quadraticSlot_eq_iff.1 heq
  · have := hmod.eq_of_lt_of_lt (by omega) (by omega)
    omega
  · have := Nat.le_of_dvd (by omega) hdvd
    omega

/-! ### The obligations -/

/-- Settles O46: the attempts `1 .. c` are as many as the slots and none repeats; attempt `c` adds a
multiple of `c` to the initial index. -/
theorem doubleHashingCoversEverySlot : Obligations.DoubleHashingCoversEverySlot := by
  intro s k hcap htag
  have hinj := doubleHashSlot_injOn k (low32 s.arg3) s.arg1.toInt
  refine ⟨doubleHashSlot k (low32 s.arg3) s.arg1.toInt,
    fun m hm hm' => exec_probe_atAttempt hcap hm hm' (htag ▸ probeOffset_doubleHashing _ _),
    fun m m' hm hmc hm' hmc' =>
      hinj m (Finset.mem_Icc.2 ⟨hm, hmc⟩) m' (Finset.mem_Icc.2 ⟨hm', hmc'⟩),
    fun m => slotAt_lt _ _ _, fun j hj => ?_, ?_,
    fun m => doubleHashSlot_eq_iff.2 Nat.add_modEq_right⟩
  · obtain ⟨m, hm, h⟩ := exists_slot_of_injOn (by simp) (fun m => slotAt_lt _ _ _) hinj hj
    obtain ⟨hm1, hmc⟩ := Finset.mem_Icc.1 hm
    exact ⟨m, hm1, hmc, h⟩
  · rw [doubleHashSlot, natCast_slotAt, Nat.cast_pow, Nat.cast_ofNat, Int.add_mul_emod_self_left]

/-- Settles O47: the attempts `0 .. c - 1` are as many as the slots and none repeats; the attempts
`c - 1` and `c`, and 0 and `2c - 1`, have the sum `2c - 1`. -/
theorem quadraticProbingCoversEverySlot : Obligations.QuadraticProbingCoversEverySlot := by
  intro s k hcap htag
  have hpos : 0 < 2 ^ k := Nat.two_pow_pos k
  have hinj := quadraticSlot_injOn k (low32 s.arg3)
  refine ⟨quadraticSlot k (low32 s.arg3), ?_,
    fun m sp hm hm' => exec_probe_atAttempt hcap hm hm' (htag ▸ probeOffset_quadratic _ _ _),
    fun m m' hm hm' => hinj m (Finset.mem_range.2 hm) m' (Finset.mem_range.2 hm'),
    fun m => slotAt_lt _ _ _, fun j hj => ?_, quadraticSlot_eq_iff.2 (.inr ⟨1, by omega⟩),
    quadraticSlot_eq_iff.2 (.inr ⟨1, by omega⟩), fun m => quadraticSlot_ne_zero_attempt⟩
  · rw [quadraticSlot, natCast_slotAt]
    simp [triangular]
  · obtain ⟨m, hm, h⟩ := exists_slot_of_injOn (by simp) (fun m => slotAt_lt _ _ _) hinj hj
    exact ⟨m, Finset.mem_range.1 hm, h⟩

end Sys2Proof.Machine
end
